-- ==== Sys2Proof/Word.lean ====
section
/-! DEFINITION. The word types of the block (spec/00_scope.md rules R5 and R7) and the storage type.

Every value is unsigned and none is ever sign-extended (R7). The widths of rule R5 are named constants here, since the
types use them; the other constants of R5 stand in Machine/Params.lean, under the same name space. A data word is 16 bits
(R50) and a command word 32 (R65).
-/
namespace Sys2Proof.Config

/-- ADDR_W (R5). -/
@[simp] abbrev addrW : Nat := 16
/-- DATA_W (R5). -/
@[simp] abbrev dataW : Nat := 8
/-- The width of IF and IE (R5). -/
@[simp] abbrev interruptW : Nat := 8
/-- The width of a step's cycles operand (R5). -/
@[simp] abbrev cyclesW : Nat := 8
/-- The width of the timer's step argument (R5, D10). -/
@[simp] abbrev timerArgW : Nat := 16

end Sys2Proof.Config

namespace Sys2Proof

/-- A data byte, `u8` (R5 DATA_W, R7). -/
abbrev Byte := BitVec Config.dataW

/-- A CPU address, `u16` (R5 ADDR_W, R31). -/
abbrev Addr := BitVec Config.addrW

/-- IF, IE and a latch, `u8` (R5, R17, R18). -/
abbrev IntFlags := BitVec Config.interruptW

/-- The cycles operand of a step, `u8` (R5, R150). -/
abbrev Cycles := BitVec Config.cyclesW

/-- The timer's step argument, `u16` (R5, R153). -/
abbrev TimerArg := BitVec Config.timerArgW

/-- A 16-bit data value, `u16` (R50). -/
abbrev Word := BitVec 16

/-- A command word (R65). -/
abbrev CmdWord := BitVec 32

/-- A storage array (R19 to R22), held by index as the list of its bytes that differ from what an unlisted index reads
as. Its one canonical form is `Memory.wf` of Machine/Ops.lean. -/
abbrev Memory := List Host.Cell

end Sys2Proof
end

