-- ==== Sys2Proof/Config.lean ====
section
/-! DEFINITION. The block's parameters (spec/00_scope.md rule R6): the state types of the external collaborators, the
video state the renderer works on, and the collaborators' behaviour as OPAQUE constants, of which nothing can be proved.

A collaborator's state is held as the history of the operations that changed it, newest first; the empty history is the
host-supplied initial state (R163). Whatever a collaborator is, what it answers is a function of that history, so the
opaque functions below admit every deterministic collaborator (DESIGN CHOICE, log entry 5).

The numbers of rule R5 and the power-on table stand in Machine/Params.lean, under this same name space.
-/
namespace Sys2Proof

/-- The eleven video registers (10_state.md R13, names by decision D3). -/
inductive VideoReg where
  | lcdc | stat | scy | scx | ly | lyc | bgp | obp0 | obp1 | wy | wx
deriving DecidableEq, Repr

/-- The video register file (R13): every bit stored and read back (R15). -/
structure VideoRegs where
  lcdc : Byte
  stat : Byte
  scy  : Byte
  scx  : Byte
  ly   : Byte
  lyc  : Byte
  bgp  : Byte
  obp0 : Byte
  obp1 : Byte
  wy   : Byte
  wx   : Byte
deriving DecidableEq, Repr, Inhabited

/-- One call of `Render.advance` (R26): what the renderer was shown, and the cycle count. -/
structure RenderCall where
  regs   : VideoRegs
  vram   : Memory
  oam    : Memory
  cycles : Cycles
deriving DecidableEq, Repr

/-- The render-private state as its history, and the video latch (R26). -/
structure RenderState where
  log   : List RenderCall
  latch : IntFlags
deriving DecidableEq, Repr

/-- The state of the video register/storage model (10_state.md R11). -/
structure VideoState where
  regs   : VideoRegs
  vram   : Memory        -- 8192 bytes, R21
  oam    : Memory        -- 160 bytes, R22
  render : RenderState
deriving DecidableEq, Repr

/-- One `Cart.write(a, v)` (R23). -/
structure CartWrite where
  addr  : Addr
  value : Byte
deriving DecidableEq, Repr

/-- The cartridge state (R23): it has no advance and no latch. -/
structure CartState where
  log : List CartWrite
deriving DecidableEq, Repr

/-- An operation that replaces the input controller's state (R24). -/
inductive InputOp where
  | write (addr : Addr) (value : Byte)
  | advance (cycles : Cycles)
deriving DecidableEq, Repr

/-- The input controller's state and its latch (R24). -/
structure InputState where
  log   : List InputOp
  latch : IntFlags
deriving DecidableEq, Repr

/-- An operation that replaces the timer's state (R25): its advance takes 16 bits (R153). -/
inductive TimerOp where
  | write (addr : Addr) (value : Byte)
  | advance (ticks : TimerArg)
deriving DecidableEq, Repr

/-- The timer's state and its latch (R25). -/
structure TimerState where
  log   : List TimerOp
  latch : IntFlags
deriving DecidableEq, Repr

namespace Config

/-- FREE VALUE (log entry 5): `Cart.read(a)`, a pure function of the cartridge state (R23, D8). -/
opaque cartRead : CartState → Addr → Byte

/-- FREE VALUE (log entry 5): `Input.read(a)`, a pure function of the input controller's state (R24, D8). -/
opaque inputRead : InputState → Addr → Byte

/-- FREE VALUE (log entry 6): the requests `Input.write(a, v)` adds to the input latch; a write may add
some (R27, R107). -/
opaque inputWriteLatch : InputState → Addr → Byte → IntFlags

/-- FREE VALUE (log entry 5): the requests `Input.advance(c)` adds to the input latch (R24). -/
opaque inputAdvanceLatch : InputState → Cycles → IntFlags

/-- FREE VALUE (log entry 5): `Timer.read(a)`, a pure function of the timer's state (R25, D8). -/
opaque timerRead : TimerState → Addr → Byte

/-- FREE VALUE (log entry 6): the requests `Timer.write(a, v)` adds to the timer latch; a write may add
some (R27, R109). -/
opaque timerWriteLatch : TimerState → Addr → Byte → IntFlags

/-- FREE VALUE (log entry 5): the requests `Timer.advance(t)` adds to the timer latch (R25). -/
opaque timerAdvanceLatch : TimerState → TimerArg → IntFlags

/-- FREE VALUE (log entry 7): the video registers after `Render.advance(video, c)` (R131, D12). -/
opaque renderRegs : VideoState → Cycles → VideoRegs

/-- FREE VALUE (log entry 7): the bytes of video RAM that `Render.advance(video, c)` replaces (R131, D12). -/
opaque renderVramWrites : VideoState → Cycles → List Host.Cell

/-- FREE VALUE (log entry 7): the bytes of sprite memory that `Render.advance(video, c)` replaces (R131, D12). -/
opaque renderOamWrites : VideoState → Cycles → List Host.Cell

/-- FREE VALUE (log entry 7): the video latch after `Render.advance(video, c)` (R26, R131). -/
opaque renderLatch : VideoState → Cycles → IntFlags

end Config
end Sys2Proof
end

