-- ==== Sys2Proof/Machine/Params.lean ====
section
/-! DEFINITION. The block's implementation constants (spec/00_scope.md rule R5) and the power-on table (spec/46_init.md
rule R161), each ONE named constant. The source's literals are unaudited (D2), so every use goes through the name; they
stand here, under Machine/, so that a repair may correct one.
-/
namespace Sys2Proof.Config

/-- WRAM_SIZE (R5). -/
abbrev wramSize : Nat := 8192
/-- WRAM_MASK (R5). -/
abbrev wramMask : Addr := 0x1FFF
/-- HRAM_SIZE (R5). -/
abbrev hramSize : Nat := 128
/-- HRAM_MASK (R5). -/
abbrev hramMask : Addr := 0x7F
/-- VRAM_SIZE (R5). -/
abbrev vramSize : Nat := 8192
/-- VRAM_MASK (R5). -/
abbrev vramMask : Addr := 0x1FFF
/-- OAM_SIZE (R5). -/
abbrev oamSize : Nat := 160
/-- OAM_MASK (R5, 90_conflicts.md C2). -/
abbrev oamMask : Addr := 0xFF
/-- DMA_LEN (R5). -/
abbrev dmaLen : Nat := 160
/-- DMA_REG (R5). -/
abbrev dmaReg : Addr := 0xFF46
/-- LY_ADDR (R5). -/
abbrev lyAddr : Addr := 0xFF44
/-- LY_READ_SENTINEL (R5, R93): 148. -/
abbrev lyReadSentinel : Byte := 148
/-- TIMER_CYCLE_SCALE (R5, R153). -/
abbrev timerCycleScale : Nat := 4
/-- NUM_VIDEO_REGS (R5). -/
abbrev numVideoRegs : Nat := 11
/-- IF_ADDR (R5). -/
abbrev ifAddr : Addr := 0xFF0F
/-- IE_ADDR (R5). -/
abbrev ieAddr : Addr := 0xFFFF
/-- The input controller's one address (R24, R87). -/
abbrev joypAddr : Addr := 0xFF00

/-- What a byte of storage that nothing has written since INIT reads as: "zero-filled memory" (R35, R160). -/
abbrev unlistedByte : Byte := 0x00

/-- What a read of an address with no read handler returns (R42, R91, R94): "read → 0". -/
abbrev neutralByte : Byte := 0x00

/-- The default POWER_ON_TABLE (R161), in table order. Its values are the spec's, from general knowledge (D13;
PRESUMED, log entry 4). -/
def defaultPowerOnTable : List (Addr × Byte) :=
  [(0xFF05, 0x00), (0xFF06, 0x00), (0xFF07, 0x00)] ++
  [(0xFF10, 0x80), (0xFF11, 0xBF), (0xFF12, 0xF3), (0xFF14, 0xBF), (0xFF16, 0x3F), (0xFF17, 0x00), (0xFF19, 0xBF),
   (0xFF1A, 0x7F), (0xFF1B, 0xFF), (0xFF1C, 0x9F), (0xFF1E, 0xBF), (0xFF20, 0xFF), (0xFF21, 0x00), (0xFF22, 0x00),
   (0xFF23, 0xBF), (0xFF24, 0x77), (0xFF25, 0xF3), (0xFF26, 0xF1)] ++
  [(0xFF40, 0x91), (0xFF42, 0x00), (0xFF43, 0x00), (0xFF45, 0x00), (0xFF47, 0xFC), (0xFF48, 0xFF), (0xFF49, 0xFF),
   (0xFF4A, 0x00), (0xFF4B, 0x00)] ++
  [(ieAddr, 0x00)]

/-- The video registers after the zero fill of INIT (R160, D15). -/
def zeroVideoRegs : VideoRegs :=
  { lcdc := 0, stat := 0, scy := 0, scx := 0, ly := 0, lyc := 0, bgp := 0, obp0 := 0, obp1 := 0, wy := 0, wx := 0 }

/-- The video registers in the reset state (R35, with the default table). -/
def resetVideoRegs : VideoRegs :=
  { lcdc := 0x91, stat := 0x00, scy := 0x00, scx := 0x00, ly := 0x00, lyc := 0x00, bgp := 0xFC, obp0 := 0xFF,
    obp1 := 0xFF, wy := 0x00, wx := 0x00 }

/-- The timer's history in the reset state, newest first: the table's three timer writes (R35, R161 rows 1 to 3). -/
def resetTimerLog : List TimerOp :=
  [.write 0xFF07 0x00, .write 0xFF06 0x00, .write 0xFF05 0x00]

end Sys2Proof.Config
end

