-- ==== Sys2Proof/Machine/Operands.lean ====
section
/-! DEFINITION. The operand forms: the address decoder `region` (spec/20_memory.md R40), the storage index of each window
(R45 to R48), the video register at an address (10_state.md R13), the DMA source address (44_dma.md R141), the timer's
scaled argument (45_advance.md R153) and the halves of a word (42_word_access.md R120, R121).
-/
namespace Sys2Proof

/-- The regions of the map (20_memory.md R40). CART_ROM and CART_RAM are two regions with one handler. -/
inductive Region where
  | cartRom | vram | cartRam | wram | echo | oam | unmapped | joyp | serial | timer | ifReg | sound | lcdreg | ly | dma
  | cgb | hram | ie
deriving DecidableEq, Repr

/-- One row of R40's table: a closed interval of addresses bound to a region. -/
structure RegionRow where
  first  : Addr
  last   : Addr
  region : Region
deriving DecidableEq, Repr

/-- Whether an address lies in a row's closed interval. -/
def RegionRow.covers (r : RegionRow) (a : Addr) : Bool :=
  decide (r.first.toNat ≤ a.toNat) && decide (a.toNat ≤ r.last.toNat)

/-- R40's ordered list of 22 intervals. -/
def regionTable : List RegionRow :=
  [⟨0x0000, 0x7FFF, .cartRom⟩, ⟨0x8000, 0x9FFF, .vram⟩, ⟨0xA000, 0xBFFF, .cartRam⟩, ⟨0xC000, 0xDFFF, .wram⟩,
   ⟨0xE000, 0xFDFF, .echo⟩, ⟨0xFE00, 0xFE9F, .oam⟩, ⟨0xFEA0, 0xFEFF, .unmapped⟩,
   ⟨Config.joypAddr, Config.joypAddr, .joyp⟩, ⟨0xFF01, 0xFF02, .serial⟩, ⟨0xFF03, 0xFF03, .unmapped⟩,
   ⟨0xFF04, 0xFF07, .timer⟩, ⟨0xFF08, 0xFF0E, .unmapped⟩] ++
  [⟨Config.ifAddr, Config.ifAddr, .ifReg⟩, ⟨0xFF10, 0xFF3F, .sound⟩, ⟨0xFF40, 0xFF43, .lcdreg⟩,
   ⟨Config.lyAddr, Config.lyAddr, .ly⟩, ⟨0xFF45, 0xFF45, .lcdreg⟩, ⟨Config.dmaReg, Config.dmaReg, .dma⟩,
   ⟨0xFF47, 0xFF4B, .lcdreg⟩, ⟨0xFF4C, 0xFF7F, .cgb⟩, ⟨0xFF80, 0xFFFE, .hram⟩, ⟨Config.ieAddr, Config.ieAddr, .ie⟩]

/-- The first row of a table that covers an address; past the end, the neutral default of an address with no handler
(R42). The table has no gap, so that end is never reached. -/
def findRegion (a : Addr) : List RegionRow → Region
  | [] => .unmapped
  | r :: rest => if r.covers a then r.region else findRegion a rest

/-- The address decoder `region(addr)` (R40). -/
def region (a : Addr) : Region := findRegion a regionTable

/-- WRAM and ECHO index, `addr & WRAM_MASK` (R46). -/
def wramIndex (a : Addr) : Nat := (a &&& Config.wramMask).toNat

/-- VRAM index, `addr & VRAM_MASK` (R45). -/
def vramIndex (a : Addr) : Nat := (a &&& Config.vramMask).toNat

/-- OAM index, `addr & OAM_MASK` (R47). -/
def oamIndex (a : Addr) : Nat := (a &&& Config.oamMask).toNat

/-- HRAM index, `addr & HRAM_MASK` (R48). -/
def hramIndex (a : Addr) : Nat := (a &&& Config.hramMask).toNat

/-- The NUM_VIDEO_REGS video registers with their addresses, VIDEO_REG_ADDRS (10_state.md R13, 43_video_model.md R132; names by
D3). -/
def videoRegTable : Vector (Addr × VideoReg) Config.numVideoRegs :=
  #v[(0xFF40, .lcdc), (0xFF41, .stat), (0xFF42, .scy), (0xFF43, .scx), (Config.lyAddr, .ly), (0xFF45, .lyc),
     (0xFF47, .bgp), (0xFF48, .obp0), (0xFF49, .obp1), (0xFF4A, .wy), (0xFF4B, .wx)]

/-- The register a table puts at an address, none at an address outside it. -/
def findVideoReg (a : Addr) : List (Addr × VideoReg) → Option VideoReg
  | [] => none
  | p :: rest => if p.1 = a then some p.2 else findVideoReg a rest

/-- `name(addr)` (10_state.md R13): none outside the eleven. -/
def videoRegAt (a : Addr) : Option VideoReg := findVideoReg a videoRegTable.toList

/-- The DMA source address of byte i, `(zext_16(page) << 8) + i` (R141). -/
def dmaSource (page : Byte) (i : Nat) : Addr :=
  ((page.zeroExtend Config.addrW) <<< Config.dataW) + BitVec.ofNat Config.addrW i

/-- The timer's argument, `4 * cycles` exact in 16 bits (R153, D10). -/
def timerTicks (cycles : Cycles) : TimerArg :=
  BitVec.ofNat Config.timerArgW (Config.timerCycleScale * cycles.toNat)

/-- The address of a word's second byte, `addr +16 1` (R53, D9). -/
def secondByte (a : Addr) : Addr := a + 1

/-- `w[7:0]` (R121). -/
def lowByte (w : Word) : Byte := w.extractLsb' 0 Config.dataW

/-- `w[15:8]` (R121). -/
def highByte (w : Word) : Byte := w.extractLsb' Config.dataW Config.dataW

/-- `hi ++ lo` (R120). -/
def joinBytes (hi lo : Byte) : Word := hi ++ lo

end Sys2Proof
end

