-- ==== Sys2Proof/Syntax.lean ====
section
/-! DEFINITION. The syntax: one constructor per row of spec/opcode_table.json (spec/30_encoding.md R70).

A READ row carries the address it reads and a WRITE row the address and the value, where the row's addresses are more
than one; a row with ONE address (JOYP, IF, LY, DMA, IE) carries no address (log entry 12). The last three rows are
pseudo-operations, with no command word of their own (R75).
-/
namespace Sys2Proof

/-- A bus command (R65, R70), or a pseudo-operation (R75). -/
inductive Instr where
  | rdCart (addr : Addr)                     -- RD.CART
  | rdVram (addr : Addr)                     -- RD.VRAM
  | rdWram (addr : Addr)                     -- RD.WRAM
  | rdEcho (addr : Addr)                     -- RD.ECHO
  | rdOam (addr : Addr)                      -- RD.OAM
  | rdUnmapped (addr : Addr)                 -- RD.UNMAPPED
  | rdJoyp                                   -- RD.JOYP, 0xFF00
  | rdSerial (addr : Addr)                   -- RD.SERIAL
  | rdTimer (addr : Addr)                    -- RD.TIMER
  | rdIf                                     -- RD.IF, 0xFF0F
  | rdSound (addr : Addr)                    -- RD.SOUND
  | rdLcdreg (addr : Addr)                   -- RD.LCDREG
  | rdLy                                     -- RD.LY, 0xFF44
  | rdDma                                    -- RD.DMA, 0xFF46
  | rdCgb (addr : Addr)                      -- RD.CGB
  | rdHram (addr : Addr)                     -- RD.HRAM
  | rdIe                                     -- RD.IE, 0xFFFF
  | wrCart (addr : Addr) (value : Byte)      -- WR.CART
  | wrVram (addr : Addr) (value : Byte)      -- WR.VRAM
  | wrWram (addr : Addr) (value : Byte)      -- WR.WRAM
  | wrEcho (addr : Addr) (value : Byte)      -- WR.ECHO
  | wrOam (addr : Addr) (value : Byte)       -- WR.OAM
  | wrUnmapped (addr : Addr) (value : Byte)  -- WR.UNMAPPED
  | wrJoyp (value : Byte)                    -- WR.JOYP, 0xFF00
  | wrSerial (addr : Addr) (value : Byte)    -- WR.SERIAL
  | wrTimer (addr : Addr) (value : Byte)     -- WR.TIMER
  | wrIf (value : Byte)                      -- WR.IF, 0xFF0F
  | wrSound (addr : Addr) (value : Byte)     -- WR.SOUND
  | wrLcdreg (addr : Addr) (value : Byte)    -- WR.LCDREG
  | wrLy (value : Byte)                      -- WR.LY, 0xFF44
  | wrDma (page : Byte)                      -- WR.DMA, 0xFF46
  | wrCgb (addr : Addr) (value : Byte)       -- WR.CGB
  | wrHram (addr : Addr) (value : Byte)      -- WR.HRAM
  | wrIe (value : Byte)                      -- WR.IE, 0xFFFF
  | adv (cycles : Cycles)                    -- ADV
  | init                                     -- INIT
  | rdw (addr : Addr)                        -- RDW (pseudo)
  | wrw (addr : Addr) (word : Word)          -- WRW (pseudo)
  | dma (page : Byte)                        -- DMA (pseudo)
deriving DecidableEq, Repr

end Sys2Proof
end

