-- ==== Sys2Proof/WellFormed.lean ====
section
/-! DEFINITION. Well-formed instructions: a row's address lies in the row's `addr_ranges` (spec/30_encoding.md R70, R71),
which are the intervals of its region (spec/20_memory.md R40).
-/
namespace Sys2Proof

/-- CART_ROM or CART_RAM: the two intervals of the CART rows (R70). -/
def Region.isCart : Region → Bool
  | .cartRom | .cartRam => true
  | _ => false

/-- Whether an instruction's address is one of its row's. -/
def Instr.wf : Instr → Bool
  | .rdCart a | .wrCart a _ => (region a).isCart
  | .rdVram a | .wrVram a _ => region a == .vram
  | .rdWram a | .wrWram a _ => region a == .wram
  | .rdEcho a | .wrEcho a _ => region a == .echo
  | .rdOam a | .wrOam a _ => region a == .oam
  | .rdUnmapped a | .wrUnmapped a _ => region a == .unmapped
  | .rdSerial a | .wrSerial a _ => region a == .serial
  | .rdTimer a | .wrTimer a _ => region a == .timer
  | .rdSound a | .wrSound a _ => region a == .sound
  | .rdLcdreg a | .wrLcdreg a _ => region a == .lcdreg
  | .rdCgb a | .wrCgb a _ => region a == .cgb
  | .rdHram a | .wrHram a _ => region a == .hram
  | .rdJoyp | .rdIf | .rdLy | .rdDma | .rdIe => true
  | .wrJoyp _ | .wrIf _ | .wrLy _ | .wrDma _ | .wrIe _ => true
  | .adv _ | .init => true
  | .rdw _ | .wrw _ _ | .dma _ => true

/-- Whether an instruction is one command with a word of its own, not a pseudo-operation (R70, R75). -/
def Instr.isCommand : Instr → Bool
  | .rdw _ | .wrw _ _ | .dma _ => false
  | .rdCart _ | .rdVram _ | .rdWram _ | .rdEcho _ | .rdOam _ | .rdUnmapped _ | .rdJoyp | .rdSerial _ | .rdTimer _
  | .rdIf | .rdSound _ | .rdLcdreg _ | .rdLy | .rdDma | .rdCgb _ | .rdHram _ | .rdIe => true
  | .wrCart _ _ | .wrVram _ _ | .wrWram _ _ | .wrEcho _ _ | .wrOam _ _ | .wrUnmapped _ _ | .wrJoyp _ | .wrSerial _ _
  | .wrTimer _ _ | .wrIf _ | .wrSound _ _ | .wrLcdreg _ _ | .wrLy _ | .wrDma _ | .wrCgb _ _ | .wrHram _ _ | .wrIe _ => true
  | .adv _ | .init => true

end Sys2Proof
end

