-- ==== Sys2Proof/Decode.lean ====
section
/-! DEFINITION. The command decoder and encoder (spec/30_encoding.md R65 to R75), and the opcode table as data (R70, R71).

A command is one 32-bit word; the spec gives it no byte order, so the decoder takes the word whole.
-/
namespace Sys2Proof

/-- Why a command word is refused (R69, R73); the word has no meaning and no step. -/
inductive DecodeError where
  | reservedBits          -- RSV is not 0
  | readDataNonZero       -- a READ with DATA not 0
  | advanceAddrNonZero    -- an ADVANCE with ADDR not 0
  | initOperandsNonZero   -- an INIT with ADDR or DATA not 0
deriving DecidableEq, Repr

/-- OP, bits 31:30 (R65). -/
def opField (w : CmdWord) : BitVec 2 := w.extractLsb' 30 2

/-- RSV, bits 29:24 (R65). -/
def rsvField (w : CmdWord) : BitVec 6 := w.extractLsb' 24 6

/-- ADDR, bits 23:8 (R65, R68). -/
def addrField (w : CmdWord) : Addr := w.extractLsb' Config.dataW Config.addrW

/-- DATA, bits 7:0 (R65, R68). -/
def dataField (w : CmdWord) : Byte := w.extractLsb' 0 Config.dataW

/-- OP of READ (R66). -/
abbrev opRead : BitVec 2 := 0b00#2
/-- OP of WRITE (R66). -/
abbrev opWrite : BitVec 2 := 0b01#2
/-- OP of ADVANCE (R66). -/
abbrev opAdvance : BitVec 2 := 0b10#2
/-- OP of INIT (R66). -/
abbrev opInit : BitVec 2 := 0b11#2

/-- The row RD.<region(addr)> (R69, R70). -/
def decodeRead (a : Addr) : Instr :=
  match region a with
  | .cartRom | .cartRam => .rdCart a
  | .vram => .rdVram a
  | .wram => .rdWram a
  | .echo => .rdEcho a
  | .oam => .rdOam a
  | .unmapped => .rdUnmapped a
  | .joyp => .rdJoyp
  | .serial => .rdSerial a
  | .timer => .rdTimer a
  | .ifReg => .rdIf
  | .sound => .rdSound a
  | .lcdreg => .rdLcdreg a
  | .ly => .rdLy
  | .dma => .rdDma
  | .cgb => .rdCgb a
  | .hram => .rdHram a
  | .ie => .rdIe

/-- The row WR.<region(addr)> (R69, R70). -/
def decodeWrite (a : Addr) (v : Byte) : Instr :=
  match region a with
  | .cartRom | .cartRam => .wrCart a v
  | .vram => .wrVram a v
  | .wram => .wrWram a v
  | .echo => .wrEcho a v
  | .oam => .wrOam a v
  | .unmapped => .wrUnmapped a v
  | .joyp => .wrJoyp v
  | .serial => .wrSerial a v
  | .timer => .wrTimer a v
  | .ifReg => .wrIf v
  | .sound => .wrSound a v
  | .lcdreg => .wrLcdreg a v
  | .ly => .wrLy v
  | .dma => .wrDma v
  | .cgb => .wrCgb a v
  | .hram => .wrHram a v
  | .ie => .wrIe v

/-- `decode(cmd)`, in R69's order. R69's first line (a faulted block accepts nothing) and its last (an INIT that is not
the first command) ask about the state: they stand in Machine/Ops.lean. -/
def decode (w : CmdWord) : Except DecodeError Instr :=
  if rsvField w ≠ 0 then .error .reservedBits
  else if opField w = opRead then
    if dataField w ≠ 0 then .error .readDataNonZero else .ok (decodeRead (addrField w))
  else if opField w = opWrite then .ok (decodeWrite (addrField w) (dataField w))
  else if opField w = opAdvance then
    if addrField w ≠ 0 then .error .advanceAddrNonZero else .ok (.adv (dataField w))
  else
    if addrField w ≠ 0 ∨ dataField w ≠ 0 then .error .initOperandsNonZero else .ok .init

/-- The command word with the given fields and RSV = 0 (R65). -/
def commandWord (op : BitVec 2) (a : Addr) (d : Byte) : CmdWord := op ++ (0#6 ++ (a ++ d))

/-- The word of `RD a` (R72). -/
def readWordOf (a : Addr) : CmdWord := commandWord opRead a 0
/-- The word of `WR a, v` (R72). -/
def writeWordOf (a : Addr) (v : Byte) : CmdWord := commandWord opWrite a v

/-- The words of an instruction, in issue order: one word for a command, the expansion's words for a pseudo-operation
(R75). -/
def encode : Instr → List CmdWord
  | .rdCart a | .rdVram a | .rdWram a | .rdEcho a | .rdOam a | .rdUnmapped a | .rdSerial a | .rdTimer a | .rdSound a
  | .rdLcdreg a | .rdCgb a | .rdHram a => [readWordOf a]
  | .rdJoyp => [readWordOf Config.joypAddr]
  | .rdIf => [readWordOf Config.ifAddr]
  | .rdLy => [readWordOf Config.lyAddr]
  | .rdDma => [readWordOf Config.dmaReg]
  | .rdIe => [readWordOf Config.ieAddr]
  | .wrCart a v | .wrVram a v | .wrWram a v | .wrEcho a v | .wrOam a v | .wrUnmapped a v | .wrSerial a v | .wrTimer a v
  | .wrSound a v | .wrLcdreg a v | .wrCgb a v | .wrHram a v => [writeWordOf a v]
  | .wrJoyp v => [writeWordOf Config.joypAddr v]
  | .wrIf v => [writeWordOf Config.ifAddr v]
  | .wrLy v => [writeWordOf Config.lyAddr v]
  | .wrDma p => [writeWordOf Config.dmaReg p]
  | .wrIe v => [writeWordOf Config.ieAddr v]
  | .adv c => [commandWord opAdvance 0 c]
  | .init => [commandWord opInit 0 0]
  | .rdw a => [readWordOf a, readWordOf (secondByte a)]
  | .wrw a w => [writeWordOf a (lowByte w), writeWordOf (secondByte a) (highByte w)]
  | .dma p => [writeWordOf Config.dmaReg p]

/-- The commands a pseudo-operation stands for (R75); a command stands for itself. -/
def expand : Instr → List Instr
  | .rdw a => [decodeRead a, decodeRead (secondByte a)]
  | .wrw a w => [decodeWrite a (lowByte w), decodeWrite (secondByte a) (highByte w)]
  | .dma p => [.wrDma p]
  | i => [i]

/-- The mnemonic of an instruction's row, as spec/opcode_table.json spells it. -/
def Instr.mnemonic : Instr → String
  | .rdCart _ => "RD.CART" | .rdVram _ => "RD.VRAM" | .rdWram _ => "RD.WRAM" | .rdEcho _ => "RD.ECHO"
  | .rdOam _ => "RD.OAM" | .rdUnmapped _ => "RD.UNMAPPED" | .rdJoyp => "RD.JOYP" | .rdSerial _ => "RD.SERIAL"
  | .rdTimer _ => "RD.TIMER" | .rdIf => "RD.IF" | .rdSound _ => "RD.SOUND" | .rdLcdreg _ => "RD.LCDREG"
  | .rdLy => "RD.LY" | .rdDma => "RD.DMA" | .rdCgb _ => "RD.CGB" | .rdHram _ => "RD.HRAM" | .rdIe => "RD.IE"
  | .wrCart _ _ => "WR.CART" | .wrVram _ _ => "WR.VRAM" | .wrWram _ _ => "WR.WRAM" | .wrEcho _ _ => "WR.ECHO"
  | .wrOam _ _ => "WR.OAM" | .wrUnmapped _ _ => "WR.UNMAPPED" | .wrJoyp _ => "WR.JOYP" | .wrSerial _ _ => "WR.SERIAL"
  | .wrTimer _ _ => "WR.TIMER" | .wrIf _ => "WR.IF" | .wrSound _ _ => "WR.SOUND" | .wrLcdreg _ _ => "WR.LCDREG"
  | .wrLy _ => "WR.LY" | .wrDma _ => "WR.DMA" | .wrCgb _ _ => "WR.CGB" | .wrHram _ _ => "WR.HRAM" | .wrIe _ => "WR.IE"
  | .adv _ => "ADV" | .init => "INIT" | .rdw _ => "RDW" | .wrw _ _ => "WRW" | .dma _ => "DMA"

/-- A row of the opcode table that carries a word (R71). -/
structure OpRow where
  mnemonic : String
  mask     : CmdWord
  value    : CmdWord
  ranges   : List (Addr × Addr)
deriving DecidableEq, Repr

/-- R71's two tests: `(cmd & mask) == match`, and `cmd[23:8]` in one of the row's closed intervals. -/
def OpRow.selects (r : OpRow) (w : CmdWord) : Bool :=
  (w &&& r.mask == r.value) &&
  r.ranges.any fun p => decide (p.1.toNat ≤ (addrField w).toNat) && decide ((addrField w).toNat ≤ p.2.toNat)

/-- A READ row: mask 0xFF0000FF, match 0x00000000 (R71). -/
def readRow (m : String) (ranges : List (Addr × Addr)) : OpRow := ⟨m, 0xFF0000FF, 0x00000000, ranges⟩
/-- A WRITE row: mask 0xFF000000, match 0x40000000 (R71). -/
def writeRow (m : String) (ranges : List (Addr × Addr)) : OpRow := ⟨m, 0xFF000000, 0x40000000, ranges⟩

/-- The READ rows of spec/opcode_table.json (R70). -/
def readRows : List OpRow :=
  [readRow "RD.CART" [(0x0000, 0x7FFF), (0xA000, 0xBFFF)], readRow "RD.VRAM" [(0x8000, 0x9FFF)],
   readRow "RD.WRAM" [(0xC000, 0xDFFF)], readRow "RD.ECHO" [(0xE000, 0xFDFF)], readRow "RD.OAM" [(0xFE00, 0xFE9F)],
   readRow "RD.UNMAPPED" [(0xFEA0, 0xFEFF), (0xFF03, 0xFF03), (0xFF08, 0xFF0E)],
   readRow "RD.JOYP" [(Config.joypAddr, Config.joypAddr)], readRow "RD.SERIAL" [(0xFF01, 0xFF02)], readRow "RD.TIMER" [(0xFF04, 0xFF07)],
   readRow "RD.IF" [(Config.ifAddr, Config.ifAddr)], readRow "RD.SOUND" [(0xFF10, 0xFF3F)],
   readRow "RD.LCDREG" [(0xFF40, 0xFF43), (0xFF45, 0xFF45), (0xFF47, 0xFF4B)],
   readRow "RD.LY" [(Config.lyAddr, Config.lyAddr)], readRow "RD.DMA" [(Config.dmaReg, Config.dmaReg)],
   readRow "RD.CGB" [(0xFF4C, 0xFF7F)], readRow "RD.HRAM" [(0xFF80, 0xFFFE)],
   readRow "RD.IE" [(Config.ieAddr, Config.ieAddr)]]

/-- The WRITE rows of spec/opcode_table.json (R70). -/
def writeRows : List OpRow :=
  [writeRow "WR.CART" [(0x0000, 0x7FFF), (0xA000, 0xBFFF)], writeRow "WR.VRAM" [(0x8000, 0x9FFF)],
   writeRow "WR.WRAM" [(0xC000, 0xDFFF)], writeRow "WR.ECHO" [(0xE000, 0xFDFF)], writeRow "WR.OAM" [(0xFE00, 0xFE9F)],
   writeRow "WR.UNMAPPED" [(0xFEA0, 0xFEFF), (0xFF03, 0xFF03), (0xFF08, 0xFF0E)],
   writeRow "WR.JOYP" [(Config.joypAddr, Config.joypAddr)], writeRow "WR.SERIAL" [(0xFF01, 0xFF02)], writeRow "WR.TIMER" [(0xFF04, 0xFF07)],
   writeRow "WR.IF" [(Config.ifAddr, Config.ifAddr)], writeRow "WR.SOUND" [(0xFF10, 0xFF3F)],
   writeRow "WR.LCDREG" [(0xFF40, 0xFF43), (0xFF45, 0xFF45), (0xFF47, 0xFF4B)],
   writeRow "WR.LY" [(Config.lyAddr, Config.lyAddr)], writeRow "WR.DMA" [(Config.dmaReg, Config.dmaReg)],
   writeRow "WR.CGB" [(0xFF4C, 0xFF7F)], writeRow "WR.HRAM" [(0xFF80, 0xFFFE)],
   writeRow "WR.IE" [(Config.ieAddr, Config.ieAddr)]]

/-- The 36 rows that carry a word (R71). -/
def opcodeRows : List OpRow :=
  readRows ++ writeRows ++
  [⟨"ADV", 0xFFFFFF00, 0x80000000, [(0x0000, 0x0000)]⟩, ⟨"INIT", 0xFFFFFFFF, 0xC0000000, [(0x0000, 0x0000)]⟩]

/-- The instruction the decoder reads from a word numbered as spec/opcode_table.json numbers it. Every command is one
32-bit word (R65), so a number that does not fit 32 bits is no command. -/
def decodeTableWord (nbits w : Nat) : Option Instr :=
  if nbits ≤ 32 ∧ w < 2 ^ 32 then (decode (BitVec.ofNat 32 w)).toOption else none

end Sys2Proof
end

