-- ==== Sys2Proof/Machine/State.lean ====
section
/-! DEFINITION. The machine's state: the bus record of spec/10_state.md R11 as plain data, and beside it the command
stream and the response port of spec/30_encoding.md R65 and R67; the ways a step can stop; the state after reset.

`VideoState`, `CartState`, `InputState` and `TimerState` are the parameters' state types, in Config.lean.
-/
namespace Sys2Proof.Machine

/-- The two fatal kinds (60_exceptions.md R170). -/
inductive FatalKind where
  | unsupportedFeatureAccess   -- a read of SERIAL or CGB (R171)
  | unknownRegisterAccess      -- a video register address outside the eleven, on the internal interface (R172)
deriving DecidableEq, Repr

/-- `status` (R28): `faulted` records the kind and the address, which is also the diagnostic for the host (R174). -/
inductive Status where
  | running
  | faulted (kind : FatalKind) (addr : Addr)
deriving DecidableEq, Repr

/-- The block's state (R11): nothing else of the block persists between commands. -/
structure BusState where
  wram   : Memory        -- 8192 bytes, R19
  hram   : Memory        -- 128 bytes, R20
  ifReg  : IntFlags         -- IF, R17
  ieReg  : IntFlags         -- IE, R18
  video  : VideoState    -- R13, R21, R22, R26
  cart   : CartState     -- R23
  input  : InputState    -- R24
  timer  : TimerState    -- R25
  status : Status        -- R28
deriving DecidableEq, Repr

/-- The data of a command's response (R67): a READ's byte; none for the other commands and for a READ that faults; a
word for the pseudo-operation RDW (R120). -/
inductive Response where
  | none
  | byte (v : Byte)
  | word (w : Word)
deriving DecidableEq, Repr

/-- Why the machine stops with a fault. -/
inductive Fault where
  /-- Raised by every command, and every step, while `status` is Faulted: the block accepts no further command (R175).
  Safe: the spec says the run has ended. -/
  | halted (kind : FatalKind) (addr : Addr)
deriving DecidableEq, Repr

/-- Why a command is refused: a verdict of the model, not a hardware event (R73, R176). -/
inductive Refusal where
  /-- Raised by an arm of `exec` whose instruction has no meaning yet. Safe. -/
  | notModelled (mnemonic : String)
  /-- Raised by a step whose command word the decoder refuses (R69, R73). Safe: the spec refuses it. -/
  | malformed (reason : DecodeError)
  /-- Raised by every command but INIT before INIT has run: every run begins with INIT (46_init.md R162). Safe: the
  spec refuses it. -/
  | firstNotInit
  /-- Raised by an INIT that is not the first command (R73, R162). Safe: the spec refuses it. -/
  | lateInit
  /-- Raised by the video model's sprite-memory interface for an index of 160 or more (43_video_model.md R129, R130,
  D19); no command that the decoder gives reaches it. Safe: the spec refuses it. -/
  | oamIndexOutOfRange
deriving DecidableEq, Repr

/-- The machine: the block, the commands the CPU has yet to issue, the response port, and the host's power-on table, which
no command changes. -/
structure State where
  bus      : BusState         -- the block, R11
  pos      : Nat              -- the index of the next command, R29
  pending  : List CmdWord     -- the commands not yet issued, the next one first (log entry 1)
  response : Response         -- rdata of the last command's response, R67 (log entry 8)
  powerOnTable : List (Addr × Byte)   -- POWER_ON_TABLE, the host's choice, R6, R161, R191 (log entry 18)
deriving DecidableEq, Repr

/-- The bus after INIT with the default table (R35). -/
def BusState.reset : BusState :=
  { wram := [], hram := [], ifReg := 0x00, ieReg := 0x00
    video := { regs := Config.resetVideoRegs, vram := [], oam := [], render := { log := [], latch := 0x00 } }
    cart := { log := [] }
    input := { log := [], latch := 0x00 }
    timer := { log := Config.resetTimerLog, latch := 0x00 }
    status := .running }

/-- The reset state: the state INIT leaves (70_reset_and_hazards.md R195), so the next command has index 1 (R29);
the host's table is the default one. -/
def State.reset : State :=
  { bus := BusState.reset, pos := 1, pending := [], response := .none
    powerOnTable := Config.defaultPowerOnTable }

end Sys2Proof.Machine
end

