-- ==== Sys2Proof/Machine/Flags.lean ====
section
/-! DEFINITION. The interrupt flags: the block's only status flags are the bits of IF (spec/10_state.md R17, R30).
-/
namespace Sys2Proof

/-- The merge of requests into IF (45_advance.md R152), or into a latch that holds requests already (10_state.md R27): the
whole byte is ORed in, with no mask (R156). -/
def mergeRequest (held bits : IntFlags) : IntFlags := held ||| bits

namespace Machine

/-- `pending = IF & IE`, a derived value for a model of the CPU (60_exceptions.md R178, D21): the block itself never
reads it. -/
def pendingInterrupts (b : BusState) : IntFlags := b.ifReg &&& b.ieReg

/-- IF bit of the vblank request (R177, positions by D4). -/
abbrev bitVblank : IntFlags := 0x01
/-- IF bit of the LCD-status request (R177). -/
abbrev bitLcdStatus : IntFlags := 0x02
/-- IF bit of the timer request (R177). -/
abbrev bitTimer : IntFlags := 0x04
/-- IF bit of the serial request, which no device raises (R157, R177). -/
abbrev bitSerial : IntFlags := 0x08
/-- IF bit of the input request (R177). -/
abbrev bitInput : IntFlags := 0x10

/-- The codes of the fatal kinds in a response's status (60_exceptions.md R170, D17). -/
def FatalKind.code : FatalKind → Nat
  | .unsupportedFeatureAccess => 1
  | .unknownRegisterAccess => 2

/-- The status code of a response: 0 is no fault (R170). -/
def Status.code : Status → Nat
  | .running => 0
  | .faulted kind _ => kind.code

end Machine
end Sys2Proof
end

