-- ==== Sys2Proof/Machine/Ops.lean ====
section
/-! DEFINITION. The named operations the meanings are built from: storage, the video model's interface
(spec/43_video_model.md), the collaborators' operations (10_state.md R23 to R26), raising a fatal condition
(60_exceptions.md R174), one bus byte read (40_byte_read.md R80) and write (41_byte_write.md R100), the DMA transfer
(44_dma.md R142), the step orchestrator (45_advance.md R150), power-on (46_init.md R160), and how a command is accepted
and completed.
-/
namespace Sys2Proof

/-! ### Storage: a list of (index, byte), rising, no byte equal to what an unlisted index reads as -/

/-- Byte i of a storage array. -/
def Memory.readByte : Memory → Nat → Byte
  | [], _ => Config.unlistedByte
  | c :: rest, i => if c.1 = i then c.2 else Memory.readByte rest i

/-- The array with no entry at index i. -/
def Memory.without : Memory → Nat → Memory
  | [], _ => []
  | c :: rest, i => if c.1 = i then Memory.without rest i else c :: Memory.without rest i

/-- The array with the entry (i, v) put before the first entry of a larger index. -/
def Memory.insertCell : Memory → Nat → Byte → Memory
  | [], i, v => [(i, v)]
  | c :: rest, i, v => if i < c.1 then (i, v) :: c :: rest else c :: Memory.insertCell rest i v

/-- `mem[i] <- v`, in the canonical form: writing what an unlisted index reads as removes the entry. -/
def Memory.writeByte (m : Memory) (i : Nat) (v : Byte) : Memory :=
  if v = Config.unlistedByte then Memory.without m i else Memory.insertCell (Memory.without m i) i v

/-- The writes of a list in order, those at an index outside the array left out. -/
def Memory.writeAll (size : Nat) : Memory → List Host.Cell → Memory
  | m, [] => m
  | m, c :: rest => Memory.writeAll size (if c.1 < size then Memory.writeByte m c.1 c.2 else m) rest

/-- The canonical form of an array of the given size: indices strictly rising, none outside the array, no entry equal to
what an unlisted index reads as. -/
abbrev Memory.wf (size : Nat) (m : Memory) : Prop :=
  m.Pairwise (fun c d => c.1 < d.1) ∧ ∀ c ∈ m, c.1 < size ∧ c.2 ≠ Config.unlistedByte

/-- `vreg[NAME]` (10_state.md R13). -/
def VideoRegs.get (r : VideoRegs) : VideoReg → Byte
  | .lcdc => r.lcdc
  | .stat => r.stat
  | .scy => r.scy
  | .scx => r.scx
  | .ly => r.ly
  | .lyc => r.lyc
  | .bgp => r.bgp
  | .obp0 => r.obp0
  | .obp1 => r.obp1
  | .wy => r.wy
  | .wx => r.wx

/-- `vreg[NAME] <- v` (10_state.md R13, R15: every bit is stored). -/
def VideoRegs.set (r : VideoRegs) (n : VideoReg) (v : Byte) : VideoRegs :=
  match n with
  | .lcdc => { r with lcdc := v }
  | .stat => { r with stat := v }
  | .scy => { r with scy := v }
  | .scx => { r with scx := v }
  | .ly => { r with ly := v }
  | .lyc => { r with lyc := v }
  | .bgp => { r with bgp := v }
  | .obp0 => { r with obp0 := v }
  | .obp1 => { r with obp1 := v }
  | .wy => { r with wy := v }
  | .wx => { r with wx := v }

/-! ### The collaborators' operations (10_state.md R23 to R26) -/

/-- `Cart.write(a, v)` (R23). -/
def CartState.write (c : CartState) (a : Addr) (v : Byte) : CartState := { log := ⟨a, v⟩ :: c.log }

/-- `Input.write(a, v)` (R24): the latch keeps its requests and gains what the collaborator requests, none of which is
lost before the next ADVANCE (R27; log entry 6). -/
def InputState.write (d : InputState) (a : Addr) (v : Byte) : InputState :=
  { log := .write a v :: d.log, latch := mergeRequest d.latch (Config.inputWriteLatch d a v) }

/-- `Input.advance(c)` (R24): a request that a write left in the latch stays in it, to be merged now (R27, R107). -/
def InputState.advance (d : InputState) (c : Cycles) : InputState :=
  { log := .advance c :: d.log, latch := mergeRequest d.latch (Config.inputAdvanceLatch d c) }

/-- `Input.clearLatch` (R24). -/
def InputState.clearLatch (d : InputState) : InputState := { d with latch := 0x00 }

/-- `Timer.write(a, v)` (R25): the latch as in `InputState.write` (R27; log entry 6). -/
def TimerState.write (d : TimerState) (a : Addr) (v : Byte) : TimerState :=
  { log := .write a v :: d.log, latch := mergeRequest d.latch (Config.timerWriteLatch d a v) }

/-- `Timer.advance(t)` (R25): the latch as in `InputState.advance` (R27, R109). -/
def TimerState.advance (d : TimerState) (t : TimerArg) : TimerState :=
  { log := .advance t :: d.log, latch := mergeRequest d.latch (Config.timerAdvanceLatch d t) }

/-- `Timer.clearLatch` (R25). -/
def TimerState.clearLatch (d : TimerState) : TimerState := { d with latch := 0x00 }

/-- `Render.advance(video, c)` (R26, 43_video_model.md R131): it may change any field of the video state and nothing
outside it (D12). Bytes outside the arrays do not exist (log entry 7). -/
def VideoState.renderAdvance (v : VideoState) (c : Cycles) : VideoState :=
  { regs := Config.renderRegs v c
    vram := Memory.writeAll Config.vramSize v.vram (Config.renderVramWrites v c)
    oam := Memory.writeAll Config.oamSize v.oam (Config.renderOamWrites v c)
    render := { log := ⟨v.regs, v.vram, v.oam, c⟩ :: v.render.log, latch := Config.renderLatch v c } }

/-- `Render.clearLatch` (R26). -/
def VideoState.clearLatch (v : VideoState) : VideoState := { v with render := { v.render with latch := 0x00 } }

namespace Machine

/-! ### The outcome of a bus access, and raising a fatal condition -/

/-- What a bus access, or a sequence of them, comes to. -/
inductive Access (α : Type) where
  | done (x : α)            -- completed
  | raised (b : BusState)   -- a fatal condition was raised: the bus with status Faulted and every earlier effect (R174)
  | refused (r : Refusal)   -- the model gives the access no meaning (R129, R130)
deriving DecidableEq, Repr

/-- Go on with the result of an access that completed; a raise or a refusal abandons the rest (00_scope.md R8). -/
def Access.andThen {α β : Type} (r : Access α) (k : α → Access β) : Access β :=
  match r with
  | .done x => k x
  | .raised b => .raised b
  | .refused e => .refused e

/-- `status <- Faulted(kind, addr)` (60_exceptions.md R174): no other state is saved or changed. There is no return from
it (R175). -/
def BusState.fault (b : BusState) (kind : FatalKind) (addr : Addr) : BusState :=
  { b with status := .faulted kind addr }

/-- `raise Fatal(kind, addr)` (R174): the access ends here, with what was done before it kept. -/
def raiseFatal {α : Type} (b : BusState) (kind : FatalKind) (addr : Addr) : Access α :=
  .raised (b.fault kind addr)

/-! ### The video model's interface (43_video_model.md R125 to R131) -/

/-- `read_register(addr)` (R125). -/
def readRegister (b : BusState) (a : Addr) : Access Byte :=
  match videoRegAt a with
  | some n => .done (b.video.regs.get n)
  | none => raiseFatal b .unknownRegisterAccess a

/-- `write_register(addr, value)` (R126). -/
def writeRegister (b : BusState) (a : Addr) (v : Byte) : Access BusState :=
  match videoRegAt a with
  | some n => .done { b with video := { b.video with regs := b.video.regs.set n v } }
  | none => raiseFatal b .unknownRegisterAccess a

/-- `read_video_ram(addr)` (R127): masked into range, never rejected. -/
def readVideoRam (b : BusState) (a : Addr) : Access Byte := .done (Memory.readByte b.video.vram (vramIndex a))

/-- `write_video_ram(addr, byte)` (R128). -/
def writeVideoRam (b : BusState) (a : Addr) (v : Byte) : Access BusState :=
  .done { b with video := { b.video with vram := Memory.writeByte b.video.vram (vramIndex a) v } }

/-- `read_sprite_memory(addr)` (R129): an index of 160 or more is refused (D19). -/
def readSpriteMemory (b : BusState) (a : Addr) : Access Byte :=
  if oamIndex a < Config.oamSize then .done (Memory.readByte b.video.oam (oamIndex a))
  else .refused .oamIndexOutOfRange

/-- `write_sprite_memory(addr, byte)` (R130), the only path by which a command writes `oam`. -/
def writeSpriteMemory (b : BusState) (a : Addr) (v : Byte) : Access BusState :=
  if oamIndex a < Config.oamSize then
    .done { b with video := { b.video with oam := Memory.writeByte b.video.oam (oamIndex a) v } }
  else .refused .oamIndexOutOfRange

/-! ### Byte reads, one operation per READ row (40_byte_read.md) -/

/-- R81. The full address goes to the cartridge (R49). -/
def readCart (b : BusState) (a : Addr) : Access Byte := .done (Config.cartRead b.cart a)
/-- R82. -/
def readVram (b : BusState) (a : Addr) : Access Byte := readVideoRam b a
/-- R83. -/
def readWram (b : BusState) (a : Addr) : Access Byte := .done (Memory.readByte b.wram (wramIndex a))
/-- R84: the alias of the one `wram` array. -/
def readEcho (b : BusState) (a : Addr) : Access Byte := .done (Memory.readByte b.wram (wramIndex a))
/-- R85. -/
def readOam (b : BusState) (a : Addr) : Access Byte := readSpriteMemory b a
/-- R86. -/
def readUnmapped (_b : BusState) : Access Byte := .done Config.neutralByte
/-- R87. -/
def readJoyp (b : BusState) : Access Byte := .done (Config.inputRead b.input Config.joypAddr)
/-- R88: always fatal. -/
def readSerial (b : BusState) (a : Addr) : Access Byte := raiseFatal b .unsupportedFeatureAccess a
/-- R89. -/
def readTimer (b : BusState) (a : Addr) : Access Byte := .done (Config.timerRead b.timer a)
/-- R90: all 8 bits as stored. -/
def readIf (b : BusState) : Access Byte := .done b.ifReg
/-- R91. -/
def readSound (_b : BusState) : Access Byte := .done Config.neutralByte
/-- R92. -/
def readLcdreg (b : BusState) (a : Addr) : Access Byte := readRegister b a
/-- R93: the sentinel, whatever is stored. -/
def readLy (_b : BusState) : Access Byte := .done Config.lyReadSentinel
/-- R94: the neutral default (D6). -/
def readDma (_b : BusState) : Access Byte := .done Config.neutralByte
/-- R95: always fatal. -/
def readCgb (b : BusState) (a : Addr) : Access Byte := raiseFatal b .unsupportedFeatureAccess a
/-- R96. -/
def readHram (b : BusState) (a : Addr) : Access Byte := .done (Memory.readByte b.hram (hramIndex a))
/-- R97: all 8 bits as stored. -/
def readIe (b : BusState) : Access Byte := .done b.ieReg

/-- `MemRead(addr, 1)` (R80): one bus byte read through the full decoder. It changes no state (R55). -/
def memRead (b : BusState) (a : Addr) : Access Byte :=
  match region a with
  | .cartRom | .cartRam => readCart b a
  | .vram => readVram b a
  | .wram => readWram b a
  | .echo => readEcho b a
  | .oam => readOam b a
  | .unmapped => readUnmapped b
  | .joyp => readJoyp b
  | .serial => readSerial b a
  | .timer => readTimer b a
  | .ifReg => readIf b
  | .sound => readSound b
  | .lcdreg => readLcdreg b a
  | .ly => readLy b
  | .dma => readDma b
  | .cgb => readCgb b a
  | .hram => readHram b a
  | .ie => readIe b

/-- The byte a bus read of an address returns, none where the read raises: the one view of memory the frame statements
use. -/
def peek (b : BusState) (a : Addr) : Option Byte :=
  match memRead b a with
  | .done v => some v
  | .raised _ => none
  | .refused _ => none

/-! ### The OAM DMA engine (44_dma.md) -/

/-- Bytes i, i+1, ... of the transfer, n of them: each is read through the full decoder and written before the next is
read (R142 to R144); a raise stops it with the bytes written so far kept (R146). -/
def dmaBytes (page : Byte) : Nat → Nat → BusState → Access BusState
  | 0, _, b => .done b
  | n + 1, i, b =>
    (memRead b (dmaSource page i)).andThen fun v =>
      (writeSpriteMemory b (BitVec.ofNat Config.addrW i) v).andThen fun b' => dmaBytes page n (i + 1) b'

/-- `DmaTransfer(page)` (R142). -/
def dmaTransfer (b : BusState) (page : Byte) : Access BusState := dmaBytes page Config.dmaLen 0 b

/-! ### Byte writes, one operation per WRITE row (41_byte_write.md) -/

/-- R101. -/
def writeCart (b : BusState) (a : Addr) (v : Byte) : Access BusState := .done { b with cart := b.cart.write a v }
/-- R102. -/
def writeVram (b : BusState) (a : Addr) (v : Byte) : Access BusState := writeVideoRam b a v
/-- R103. -/
def writeWram (b : BusState) (a : Addr) (v : Byte) : Access BusState :=
  .done { b with wram := Memory.writeByte b.wram (wramIndex a) v }
/-- R104: the alias of the one `wram` array. -/
def writeEcho (b : BusState) (a : Addr) (v : Byte) : Access BusState :=
  .done { b with wram := Memory.writeByte b.wram (wramIndex a) v }
/-- R105. -/
def writeOam (b : BusState) (a : Addr) (v : Byte) : Access BusState := writeSpriteMemory b a v
/-- R106: nothing. -/
def writeUnmapped (b : BusState) : Access BusState := .done b
/-- R107. -/
def writeJoyp (b : BusState) (v : Byte) : Access BusState :=
  .done { b with input := b.input.write Config.joypAddr v }
/-- R108: nothing, and not fatal. -/
def writeSerial (b : BusState) : Access BusState := .done b
/-- R109. -/
def writeTimer (b : BusState) (a : Addr) (v : Byte) : Access BusState := .done { b with timer := b.timer.write a v }
/-- R110: all 8 bits. -/
def writeIf (b : BusState) (v : Byte) : Access BusState := .done { b with ifReg := v }
/-- R111: nothing. -/
def writeSound (b : BusState) : Access BusState := .done b
/-- R112. -/
def writeLcdreg (b : BusState) (a : Addr) (v : Byte) : Access BusState := writeRegister b a v
/-- R113: the stored LY, through the register file. -/
def writeLy (b : BusState) (v : Byte) : Access BusState := writeRegister b Config.lyAddr v
/-- R114: the transfer; nothing is stored. -/
def writeDma (b : BusState) (page : Byte) : Access BusState := dmaTransfer b page
/-- R115: nothing, and not fatal. -/
def writeCgb (b : BusState) : Access BusState := .done b
/-- R116. -/
def writeHram (b : BusState) (a : Addr) (v : Byte) : Access BusState :=
  .done { b with hram := Memory.writeByte b.hram (hramIndex a) v }
/-- R117. -/
def writeIe (b : BusState) (v : Byte) : Access BusState := .done { b with ieReg := v }

/-- `MemWrite(addr, 1, value)` (R100): one bus byte write through the full decoder. -/
def memWrite (b : BusState) (a : Addr) (v : Byte) : Access BusState :=
  match region a with
  | .cartRom | .cartRam => writeCart b a v
  | .vram => writeVram b a v
  | .wram => writeWram b a v
  | .echo => writeEcho b a v
  | .oam => writeOam b a v
  | .unmapped => writeUnmapped b
  | .joyp => writeJoyp b v
  | .serial => writeSerial b
  | .timer => writeTimer b a v
  | .ifReg => writeIf b v
  | .sound => writeSound b
  | .lcdreg => writeLcdreg b a v
  | .ly => writeLy b v
  | .dma => writeDma b v
  | .cgb => writeCgb b
  | .hram => writeHram b a v
  | .ie => writeIe b v

/-! ### Word accesses as one operation (42_word_access.md R120, R121) -/

/-- `MemRead(addr, 2)` (R120): the low address first (D9). -/
def memReadWord (b : BusState) (a : Addr) : Access Word :=
  (memRead b a).andThen fun lo => (memRead b (secondByte a)).andThen fun hi => .done (joinBytes hi lo)

/-- `MemWrite(addr, 2, w)` (R121): the low byte first (D9). At 0xFF46 the second byte goes to 0xFF47, BGP, as R121's
pseudocode has it and not its corner case (DEDUCED, log entry 19). -/
def memWriteWord (b : BusState) (a : Addr) (w : Word) : Access BusState :=
  (memWrite b a (lowByte w)).andThen fun b' => memWrite b' (secondByte a) (highByte w)

/-! ### The step orchestrator (45_advance.md R150 to R152) -/

/-- Advance the video model, merge its latch into IF, clear the latch (R150, R152). -/
def advanceVideo (b : BusState) (c : Cycles) : BusState :=
  let v := b.video.renderAdvance c
  { b with video := v.clearLatch, ifReg := mergeRequest b.ifReg v.render.latch }

/-- Advance the input controller, merge, clear (R150, R152). -/
def advanceInput (b : BusState) (c : Cycles) : BusState :=
  let d := b.input.advance c
  { b with input := d.clearLatch, ifReg := mergeRequest b.ifReg d.latch }

/-- Advance the timer by four times the cycles (R153), merge, clear (R150, R152). -/
def advanceTimer (b : BusState) (c : Cycles) : BusState :=
  let d := b.timer.advance (timerTicks c)
  { b with timer := d.clearLatch, ifReg := mergeRequest b.ifReg d.latch }

/-- `Advance(cycles)` (R150), in the fixed order video, input, timer (R151). -/
def advanceBus (b : BusState) (c : Cycles) : BusState := advanceTimer (advanceInput (advanceVideo b c) c) c

/-! ### Power-on initialisation (46_init.md R160) -/

/-- The bus after the zero fill and with every collaborator at its initial state (R160, R163), before the table. -/
def zeroFilledBus : BusState :=
  { wram := [], hram := [], ifReg := 0x00, ieReg := 0x00
    video := { regs := Config.zeroVideoRegs, vram := [], oam := [], render := { log := [], latch := 0x00 } }
    cart := { log := [] }
    input := { log := [], latch := 0x00 }
    timer := { log := [], latch := 0x00 }
    status := .running }

/-- The entries of a power-on table as bus byte writes, in table order (R160, D14). -/
def applyTable : List (Addr × Byte) → BusState → Access BusState
  | [], b => .done b
  | e :: rest, b => (memWrite b e.1 e.2).andThen fun b' => applyTable rest b'

/-- All three latches at 0x00: their value after INIT (R35, R27; log entry 6). -/
def clearLatches (b : BusState) : BusState :=
  { b with video := b.video.clearLatch, input := b.input.clearLatch, timer := b.timer.clearLatch }

/-- `Init()` for a power-on table (R160). -/
def initBus (table : List (Addr × Byte)) : Access BusState :=
  (applyTable table zeroFilledBus).andThen fun b => .done (clearLatches b)

/-- The state before the first command of a run (R198), with the power-on table the host has chosen (R191). INIT, the
only command accepted here (R162), replaces all of its bus, so its contents reach no program (DESIGN CHOICE, log entry
3). -/
def State.powerOnWith (table : List (Addr × Byte)) : State :=
  { bus := zeroFilledBus, pos := 0, pending := [], response := .none, powerOnTable := table }

/-- The state before the first command of a run, with the default table (R161). -/
def State.powerOn : State := State.powerOnWith Config.defaultPowerOnTable

/-! ### Accepting and completing a command -/

/-- Once Faulted, the block accepts no further command (60_exceptions.md R175). -/
def whenRunning (s : State) (k : Host.Outcome State Fault Refusal) : Host.Outcome State Fault Refusal :=
  match s.bus.status with
  | .running => k
  | .faulted kind addr => .fault (.halted kind addr)

/-- The state after a command: the new bus, the position moved by one (R29), the response (R67). -/
def State.respond (s : State) (b : BusState) (r : Response) : State :=
  { s with bus := b, pos := s.pos + 1, response := r }

/-- The end of a command: its response, or, after a raise, the faulted bus and no data (R67, R174). -/
def complete (s : State) (r : Access (BusState × Response)) : Host.Outcome State Fault Refusal :=
  match r with
  | .done x => .next (s.respond x.1 x.2)
  | .raised b => .next (s.respond b .none)
  | .refused e => .refused e

/-- A READ, WRITE or ADVANCE: accepted while running and not as the first command of a run (46_init.md R162). -/
def command (s : State) (body : BusState → Access (BusState × Response)) : Host.Outcome State Fault Refusal :=
  whenRunning s (if s.pos = 0 then .refused .firstNotInit else complete s (body s.bus))

/-- A READ (R67, R98): its response is the byte read. -/
def readCommand (s : State) (rd : BusState → Access Byte) : Host.Outcome State Fault Refusal :=
  command s fun b => (rd b).andThen fun v => .done (b, .byte v)

/-- A WRITE (R67): its response has no data. -/
def writeCommand (s : State) (wr : BusState → Access BusState) : Host.Outcome State Fault Refusal :=
  command s fun b => (wr b).andThen fun b' => .done (b', .none)

/-- INIT with a power-on table: accepted only as the first command of a run (R162). -/
def initCommand (s : State) (table : List (Addr × Byte)) : Host.Outcome State Fault Refusal :=
  whenRunning s (if s.pos = 0 then complete s ((initBus table).andThen fun b => .done (b, .none))
    else .refused .lateInit)

/-- Go on with the next state of a command, if it has one. -/
def thenNext (o : Host.Outcome State Fault Refusal) (k : State → Host.Outcome State Fault Refusal) :
    Host.Outcome State Fault Refusal :=
  match o with
  | .next t => k t
  | .fault f => .fault f
  | .refused r => .refused r

/-- The two READ commands of RDW (42_word_access.md R120, R122), and the word they make; a raise in the first leaves out
the second (R123). -/
def readWordCommands (s : State) (a : Addr) : Host.Outcome State Fault Refusal :=
  thenNext (readCommand s fun b => memRead b a) fun t =>
    match t.response with
    | .byte lo =>
      thenNext (readCommand t fun b => memRead b (secondByte a)) fun u =>
        match u.response with
        | .byte hi => .next { u with response := .word (joinBytes hi lo) }
        | .word _ => .next u
        | .none => .next u
    | .word _ => .next t
    | .none => .next t

/-- The two WRITE commands of WRW (R121, R122); a raise in the first leaves out the second (R123). At `addr` = 0xFF46 the
high byte is written to `addr +16 1` = 0xFF47, which is BGP (R13): R121's pseudocode is followed, not its corner case,
which names LY (DEDUCED, log entry 19). -/
def writeWordCommands (s : State) (a : Addr) (w : Word) : Host.Outcome State Fault Refusal :=
  thenNext (writeCommand s fun b => memWrite b a (lowByte w)) fun t =>
    match t.bus.status with
    | .running => writeCommand t fun b => memWrite b (secondByte a) (highByte w)
    | .faulted _ _ => .next t

/-! ### Taking the next command from the stream -/

/-- What the front of the command stream holds for a step. -/
inductive Fetched where
  | halted (kind : FatalKind) (addr : Addr)   -- Faulted: nothing is accepted (R69, R175)
  | idle                                      -- the CPU has issued no command
  | malformed (reason : DecodeError)          -- the next word is refused (R69, R73)
  | command (i : Instr) (s : State)           -- the next command, and the state with its word taken off the stream
deriving DecidableEq, Repr

/-- R69's decoding of the next command, its status test first. -/
def fetchCommand (s : State) : Fetched :=
  match s.bus.status with
  | .faulted kind addr => .halted kind addr
  | .running =>
    match s.pending with
    | [] => .idle
    | w :: rest =>
      match decode w with
      | .error e => .malformed e
      | .ok i => .command i { s with pending := rest }

/-- The position at which a command can run: INIT only as command 0, any other only after it (R162). -/
def positionFor (w : CmdWord) (pos : Nat) : Nat :=
  match decode w with
  | .ok .init => 0
  | _ => if pos = 0 then 1 else pos

end Machine
end Sys2Proof
end

