-- ==== Sys2Proof/Machine/Advance.lean ====
section
/-! DEFINITION. The meaning of ADV (spec/45_advance.md R150 to R159). -/
namespace Sys2Proof.Machine

/-- ADV (R150): it raises no fatal condition (R158). -/
def execAdv (cycles : Cycles) (s : State) : Host.Outcome State Fault Refusal :=
  command s fun b => .done (advanceBus b cycles, .none)

end Sys2Proof.Machine
end

