-- ==== Sys2Proof/Machine/Init.lean ====
section
/-! DEFINITION. The meaning of INIT (spec/46_init.md R160 to R164). -/
namespace Sys2Proof.Machine

/-- INIT (R160) with the host's POWER_ON_TABLE (R161, 60_exceptions.md R191); accepted only as the first command of a run
(R162). -/
def execInit (s : State) : Host.Outcome State Fault Refusal := initCommand s s.powerOnTable

end Sys2Proof.Machine
end

