-- ==== Sys2Proof/Machine/Read.lean ====
section
/-! DEFINITION. The meanings of the READ rows (spec/40_byte_read.md R81 to R97), one definition per row.

Each is one READ command (R67, R98) over the row's own read operation of Machine/Ops.lean.
-/
namespace Sys2Proof.Machine

/-- RD.CART (R81). -/
def execRdCart (addr : Addr) (s : State) : Host.Outcome State Fault Refusal :=
  readCommand s fun b => readCart b addr

/-- RD.VRAM (R82). -/
def execRdVram (addr : Addr) (s : State) : Host.Outcome State Fault Refusal :=
  readCommand s fun b => readVram b addr

/-- RD.WRAM (R83). -/
def execRdWram (addr : Addr) (s : State) : Host.Outcome State Fault Refusal :=
  readCommand s fun b => readWram b addr

/-- RD.ECHO (R84). -/
def execRdEcho (addr : Addr) (s : State) : Host.Outcome State Fault Refusal :=
  readCommand s fun b => readEcho b addr

/-- RD.OAM (R85). -/
def execRdOam (addr : Addr) (s : State) : Host.Outcome State Fault Refusal :=
  readCommand s fun b => readOam b addr

/-- RD.UNMAPPED (R86). -/
def execRdUnmapped (_addr : Addr) (s : State) : Host.Outcome State Fault Refusal :=
  readCommand s fun b => readUnmapped b

/-- RD.JOYP (R87). -/
def execRdJoyp (s : State) : Host.Outcome State Fault Refusal :=
  readCommand s fun b => readJoyp b

/-- RD.SERIAL (R88): takes the fatal condition UnsupportedFeatureAccess (R171, R174). -/
def execRdSerial (addr : Addr) (s : State) : Host.Outcome State Fault Refusal :=
  readCommand s fun b => readSerial b addr

/-- RD.TIMER (R89). -/
def execRdTimer (addr : Addr) (s : State) : Host.Outcome State Fault Refusal :=
  readCommand s fun b => readTimer b addr

/-- RD.IF (R90). -/
def execRdIf (s : State) : Host.Outcome State Fault Refusal :=
  readCommand s fun b => readIf b

/-- RD.SOUND (R91). -/
def execRdSound (_addr : Addr) (s : State) : Host.Outcome State Fault Refusal :=
  readCommand s fun b => readSound b

/-- RD.LCDREG (R92). -/
def execRdLcdreg (addr : Addr) (s : State) : Host.Outcome State Fault Refusal :=
  readCommand s fun b => readLcdreg b addr

/-- RD.LY (R93): the sentinel, not the stored value. -/
def execRdLy (s : State) : Host.Outcome State Fault Refusal :=
  readCommand s fun b => readLy b

/-- RD.DMA (R94): the neutral default (D6). -/
def execRdDma (s : State) : Host.Outcome State Fault Refusal :=
  readCommand s fun b => readDma b

/-- RD.CGB (R95): takes the fatal condition UnsupportedFeatureAccess (R171, R174). -/
def execRdCgb (addr : Addr) (s : State) : Host.Outcome State Fault Refusal :=
  readCommand s fun b => readCgb b addr

/-- RD.HRAM (R96). -/
def execRdHram (addr : Addr) (s : State) : Host.Outcome State Fault Refusal :=
  readCommand s fun b => readHram b addr

/-- RD.IE (R97). -/
def execRdIe (s : State) : Host.Outcome State Fault Refusal :=
  readCommand s fun b => readIe b

end Sys2Proof.Machine
end

