-- ==== Sys2Proof/Machine/WordAccess.lean ====
section
/-! DEFINITION. The meanings of the pseudo-operations (spec/30_encoding.md R75): RDW, WRW (42_word_access.md) and DMA
(44_dma.md R140). Each runs the commands it stands for, in issue order, the position moving by one per command (R29).
-/
namespace Sys2Proof.Machine

/-- RDW (R120): `RD addr` then `RD addr +16 1`; the response is the word `hi ++ lo` (log entry 8). -/
def execRdw (addr : Addr) (s : State) : Host.Outcome State Fault Refusal := readWordCommands s addr

/-- WRW (R121): `WR addr, w[7:0]` then `WR addr +16 1, w[15:8]`, at 0xFF46 too (DEDUCED, log entry 19). -/
def execWrw (addr : Addr) (word : Word) (s : State) : Host.Outcome State Fault Refusal :=
  writeWordCommands s addr word

/-- DMA (R140): `WR 0xFF46, page`. -/
def execDma (page : Byte) (s : State) : Host.Outcome State Fault Refusal :=
  writeCommand s fun b => memWrite b Config.dmaReg page

end Sys2Proof.Machine
end

