-- ==== Sys2Proof/Machine/Write.lean ====
section
/-! DEFINITION. The meanings of the WRITE rows (spec/41_byte_write.md R101 to R117), one definition per row.

Each is one WRITE command (R67, R118) over the row's own write operation of Machine/Ops.lean.
-/
namespace Sys2Proof.Machine

/-- WR.CART (R101). -/
def execWrCart (addr : Addr) (value : Byte) (s : State) : Host.Outcome State Fault Refusal :=
  writeCommand s fun b => writeCart b addr value

/-- WR.VRAM (R102). -/
def execWrVram (addr : Addr) (value : Byte) (s : State) : Host.Outcome State Fault Refusal :=
  writeCommand s fun b => writeVram b addr value

/-- WR.WRAM (R103). -/
def execWrWram (addr : Addr) (value : Byte) (s : State) : Host.Outcome State Fault Refusal :=
  writeCommand s fun b => writeWram b addr value

/-- WR.ECHO (R104). -/
def execWrEcho (addr : Addr) (value : Byte) (s : State) : Host.Outcome State Fault Refusal :=
  writeCommand s fun b => writeEcho b addr value

/-- WR.OAM (R105). -/
def execWrOam (addr : Addr) (value : Byte) (s : State) : Host.Outcome State Fault Refusal :=
  writeCommand s fun b => writeOam b addr value

/-- WR.UNMAPPED (R106): changes no state, and does not fault. -/
def execWrUnmapped (_addr : Addr) (_value : Byte) (s : State) : Host.Outcome State Fault Refusal :=
  writeCommand s fun b => writeUnmapped b

/-- WR.JOYP (R107). -/
def execWrJoyp (value : Byte) (s : State) : Host.Outcome State Fault Refusal :=
  writeCommand s fun b => writeJoyp b value

/-- WR.SERIAL (R108): changes no state, and does not fault. -/
def execWrSerial (_addr : Addr) (_value : Byte) (s : State) : Host.Outcome State Fault Refusal :=
  writeCommand s fun b => writeSerial b

/-- WR.TIMER (R109). -/
def execWrTimer (addr : Addr) (value : Byte) (s : State) : Host.Outcome State Fault Refusal :=
  writeCommand s fun b => writeTimer b addr value

/-- WR.IF (R110). -/
def execWrIf (value : Byte) (s : State) : Host.Outcome State Fault Refusal :=
  writeCommand s fun b => writeIf b value

/-- WR.SOUND (R111): changes no state, and does not fault. -/
def execWrSound (_addr : Addr) (_value : Byte) (s : State) : Host.Outcome State Fault Refusal :=
  writeCommand s fun b => writeSound b

/-- WR.LCDREG (R112). -/
def execWrLcdreg (addr : Addr) (value : Byte) (s : State) : Host.Outcome State Fault Refusal :=
  writeCommand s fun b => writeLcdreg b addr value

/-- WR.LY (R113). -/
def execWrLy (value : Byte) (s : State) : Host.Outcome State Fault Refusal :=
  writeCommand s fun b => writeLy b value

/-- WR.DMA (R114). -/
def execWrDma (page : Byte) (s : State) : Host.Outcome State Fault Refusal :=
  writeCommand s fun b => writeDma b page

/-- WR.CGB (R115): changes no state, and does not fault. -/
def execWrCgb (_addr : Addr) (_value : Byte) (s : State) : Host.Outcome State Fault Refusal :=
  writeCommand s fun b => writeCgb b

/-- WR.HRAM (R116). -/
def execWrHram (addr : Addr) (value : Byte) (s : State) : Host.Outcome State Fault Refusal :=
  writeCommand s fun b => writeHram b addr value

/-- WR.IE (R117). -/
def execWrIe (value : Byte) (s : State) : Host.Outcome State Fault Refusal :=
  writeCommand s fun b => writeIe b value

end Sys2Proof.Machine
end

