-- ==== Sys2Proof/Machine/Dispatch.lean ====
section
/-! DEFINITION. The dispatch: one arm per constructor of Instr, each one call of the instruction's meaning. -/
namespace Sys2Proof.Machine

def exec (i : Instr) (s : State) : Host.Outcome State Fault Refusal :=
  match i with
  | .rdCart addr => Sys2Proof.Machine.execRdCart addr s
  | .rdVram addr => Sys2Proof.Machine.execRdVram addr s
  | .rdWram addr => Sys2Proof.Machine.execRdWram addr s
  | .rdEcho addr => Sys2Proof.Machine.execRdEcho addr s
  | .rdOam addr => Sys2Proof.Machine.execRdOam addr s
  | .rdUnmapped addr => Sys2Proof.Machine.execRdUnmapped addr s
  | .rdJoyp => Sys2Proof.Machine.execRdJoyp s
  | .rdSerial addr => Sys2Proof.Machine.execRdSerial addr s
  | .rdTimer addr => Sys2Proof.Machine.execRdTimer addr s
  | .rdIf => Sys2Proof.Machine.execRdIf s
  | .rdSound addr => Sys2Proof.Machine.execRdSound addr s
  | .rdLcdreg addr => Sys2Proof.Machine.execRdLcdreg addr s
  | .rdLy => Sys2Proof.Machine.execRdLy s
  | .rdDma => Sys2Proof.Machine.execRdDma s
  | .rdCgb addr => Sys2Proof.Machine.execRdCgb addr s
  | .rdHram addr => Sys2Proof.Machine.execRdHram addr s
  | .rdIe => Sys2Proof.Machine.execRdIe s
  | .wrCart addr value => Sys2Proof.Machine.execWrCart addr value s
  | .wrVram addr value => Sys2Proof.Machine.execWrVram addr value s
  | .wrWram addr value => Sys2Proof.Machine.execWrWram addr value s
  | .wrEcho addr value => Sys2Proof.Machine.execWrEcho addr value s
  | .wrOam addr value => Sys2Proof.Machine.execWrOam addr value s
  | .wrUnmapped addr value => Sys2Proof.Machine.execWrUnmapped addr value s
  | .wrJoyp value => Sys2Proof.Machine.execWrJoyp value s
  | .wrSerial addr value => Sys2Proof.Machine.execWrSerial addr value s
  | .wrTimer addr value => Sys2Proof.Machine.execWrTimer addr value s
  | .wrIf value => Sys2Proof.Machine.execWrIf value s
  | .wrSound addr value => Sys2Proof.Machine.execWrSound addr value s
  | .wrLcdreg addr value => Sys2Proof.Machine.execWrLcdreg addr value s
  | .wrLy value => Sys2Proof.Machine.execWrLy value s
  | .wrDma page => Sys2Proof.Machine.execWrDma page s
  | .wrCgb addr value => Sys2Proof.Machine.execWrCgb addr value s
  | .wrHram addr value => Sys2Proof.Machine.execWrHram addr value s
  | .wrIe value => Sys2Proof.Machine.execWrIe value s
  | .adv cycles => Sys2Proof.Machine.execAdv cycles s
  | .init => Sys2Proof.Machine.execInit s
  | .rdw addr => Sys2Proof.Machine.execRdw addr s
  | .wrw addr word => Sys2Proof.Machine.execWrw addr word s
  | .dma page => Sys2Proof.Machine.execDma page s

end Sys2Proof.Machine
end

