-- ==== Sys2Proof/Machine/Step.lean ====
section
/-! DEFINITION. One step of the machine: the next command of the stream is decoded (spec/30_encoding.md R69) and run
(spec/20_memory.md R60: one at a time, in issue order, each complete before the next).
-/
namespace Sys2Proof.Machine

/-- One step. With no command issued, the block does nothing (log entry 2). -/
def step (s : State) : Host.Outcome State Fault Refusal :=
  match fetchCommand s with
  | .halted kind addr => .fault (.halted kind addr)
  | .idle => .next s
  | .malformed reason => .refused (.malformed reason)
  | .command i t => exec i t

/-- The state in which the CPU's next command is the word w, at the position where that command can run (R162; log
entry 1). -/
def State.withFetchWord (s : State) (_nbits w : Nat) : State :=
  { s with pending := BitVec.ofNat 32 w :: s.pending, pos := positionFor (BitVec.ofNat 32 w) s.pos }

end Sys2Proof.Machine
end

