-- ==== Sys2Proof/Safety.lean ====
section
/-! DEFINITION. The terms claims are stated in: when a command is accepted, the invariant, when a run succeeds, and the
two premises the spec names.
-/
namespace Sys2Proof

/-- SERIAL and CGB, the regions whose read is fatal (20_memory.md R43). -/
def Region.fatalOnRead : Region → Bool
  | .serial | .cgb => true
  | _ => false

namespace Machine

/-- A state that accepts READ, WRITE and ADVANCE commands: running (spec/60_exceptions.md R175), and past INIT
(46_init.md R162). -/
abbrev State.accepting (s : State) : Prop := s.bus.status = .running ∧ s.pos ≠ 0

/-- The storage arrays are in their one canonical form, of the sizes of 00_scope.md R5. -/
abbrev BusState.memoriesWf (b : BusState) : Prop :=
  Memory.wf Config.wramSize b.wram ∧ Memory.wf Config.hramSize b.hram ∧
  Memory.wf Config.vramSize b.video.vram ∧ Memory.wf Config.oamSize b.video.oam

/-- A recorded fault is an UnsupportedFeatureAccess at an address of SERIAL or CGB (60_exceptions.md R171, R172). -/
abbrev BusState.faultExplained (b : BusState) : Prop :=
  ∀ kind addr, b.status = .faulted kind addr →
    kind = .unsupportedFeatureAccess ∧ (region addr).fatalOnRead = true

/-- The invariant of the machine. -/
abbrev State.invariant (s : State) : Prop := s.bus.memoriesWf ∧ s.bus.faultExplained

/-- The three device latches are 0x00 (10_state.md R27). -/
abbrev BusState.latchesClear (b : BusState) : Prop :=
  b.video.render.latch = 0x00 ∧ b.input.latch = 0x00 ∧ b.timer.latch = 0x00

/-- A run that satisfies a claim (60_exceptions.md R192): the CPU has stopped issuing commands and the block is still
running; a refused command ends a run with no state at all (R73, R176). -/
abbrev State.succeeded (s : State) : Prop := s.pending = [] ∧ s.bus.status = .running

/-- Some number of steps ends the run with success (R192). -/
def State.runSucceeds (s : State) : Prop := ∃ k t, Sys2Proof.core.run k s = .next t ∧ State.succeeded t

/-- A command word that ends no run: it decodes, and its command is no INIT, no READ of SERIAL or CGB, and no DMA from
page 0xFF (70_reset_and_hazards.md R201, 60_exceptions.md R171). -/
def SafeWord (w : CmdWord) : Prop :=
  ∃ i, decode w = .ok i ∧ i ≠ .init ∧ (∀ a, i ≠ .rdSerial a) ∧ (∀ a, i ≠ .rdCgb a) ∧ i ≠ .wrDma 0xFF

/-- An accepting state whose pending words are all safe. -/
abbrev State.safelyLoaded (s : State) : Prop := s.accepting ∧ ∀ w ∈ s.pending, SafeWord w

/-- `CyclesSmall` (45_advance.md R153): every ADVANCE of a command stream has cycles of at most 63. -/
def CyclesSmall (stream : List CmdWord) : Prop :=
  ∀ w ∈ stream, ∀ c, decode w = .ok (.adv c) → c.toNat ≤ 63

/-- `RenderPreservesMemories` (43_video_model.md R131, D12): a premise a claim may take; nothing proves it. -/
def RenderPreservesMemories : Prop :=
  ∀ (v : VideoState) (c : Cycles), (v.renderAdvance c).vram = v.vram ∧ (v.renderAdvance c).oam = v.oam

end Machine
end Sys2Proof
end

