-- ==== Sys2Proof/Certificates/Slice0/Obligations.lean ====
section
/-! DEFINITION. The statements for the provers. Each docstring names the rules of spec/ it formalises, or says that it
rests on a decision of the spec or of the model.

`State.accepting s` is the one premise about the state: running and past INIT, which is when the spec accepts a READ,
WRITE or ADVANCE (60_exceptions.md R175, 46_init.md R162). The field `pos` (10_state.md R29, D24) and the field
`response` (30_encoding.md R67, log entry 8) are spelled out in every next state.
-/
open Sys2Proof Sys2Proof.Machine

/-! ### Encoding -/

/-- 30_encoding.md R72 (the spec's own derivation) and the vectors of 95_test_vectors.md 2.10. -/
def Obligations.TheSpecsExampleWordsDecode : Prop :=
  decode 0x00C00000#32 = .ok (.rdWram 0xC000#16) ∧ decode 0x40FF46C1#32 = .ok (.wrDma 0xC1#8) ∧
  decode 0x40FFFF05#32 = .ok (.wrIe 0x05#8) ∧ decode 0x80000004#32 = .ok (.adv 0x04#8) ∧
  decode 0xC0000000#32 = .ok .init ∧ decode 0x00FF4400#32 = .ok .rdLy ∧
  decode 0x01C00000#32 = .error .reservedBits ∧ decode 0x3FFFFFFF#32 = .error .reservedBits ∧
  decode 0x00C00001#32 = .error .readDataNonZero ∧ decode 0x80000100#32 = .error .advanceAddrNonZero ∧
  decode 0xC0000001#32 = .error .initOperandsNonZero

/-- 30_encoding.md R65, R69 (D1): every well-formed command is one word, and that word decodes to it. -/
def Obligations.DecodeOfEncodeIsTheCommand : Prop :=
  ∀ i : Instr, i.wf = true → i.isCommand = true → ∃ w, encode i = [w] ∧ decode w = .ok i

/-- 30_encoding.md R65, R69 (D1): a word that decodes is the one word of the well-formed command it decodes to. -/
def Obligations.EncodeOfDecodeIsTheWord : Prop :=
  ∀ (w : CmdWord) (i : Instr), decode w = .ok i → i.wf = true ∧ i.isCommand = true ∧ encode i = [w]

/-- 30_encoding.md R71 (derived there): the opcode rows are disjoint; a word that decodes is selected by exactly one row,
that of its instruction, and a refused word by none. -/
def Obligations.ExactlyOneOpcodeRowSelectsAWord : Prop :=
  ∀ w : CmdWord,
    (∀ i, decode w = .ok i → ∃ r, opcodeRows.filter (fun r => r.selects w) = [r] ∧ r.mnemonic = i.mnemonic) ∧
    (∀ e, decode w = .error e → opcodeRows.filter (fun r => r.selects w) = [])

/-- 30_encoding.md R75 (D1): the words of the pseudo-operations, field by field. WRW's second address is `a + 1` at 0xFF46
too (log entry 19). -/
def Obligations.PseudoOperationsAreTheirExpansionsWords : Prop :=
  (∀ a : Addr, ∃ w₁ w₂, encode (.rdw a) = [w₁, w₂] ∧
    opField w₁ = 0b00#2 ∧ rsvField w₁ = 0 ∧ addrField w₁ = a ∧ dataField w₁ = 0 ∧
    opField w₂ = 0b00#2 ∧ rsvField w₂ = 0 ∧ addrField w₂ = a + 1 ∧ dataField w₂ = 0) ∧
  (∀ (a : Addr) (w : Word), ∃ w₁ w₂, encode (.wrw a w) = [w₁, w₂] ∧
    opField w₁ = 0b01#2 ∧ rsvField w₁ = 0 ∧ addrField w₁ = a ∧ (dataField w₁).toNat = w.toNat % 256 ∧
    opField w₂ = 0b01#2 ∧ rsvField w₂ = 0 ∧ addrField w₂ = a + 1 ∧ (dataField w₂).toNat = w.toNat / 256) ∧
  (∀ p : Byte, ∃ w₁, encode (.dma p) = [w₁] ∧
    opField w₁ = 0b01#2 ∧ rsvField w₁ = 0 ∧ addrField w₁ = 0xFF46#16 ∧ dataField w₁ = p)

/-! ### The address map -/

/-- 20_memory.md R40, R41: the region of every address, by its number. -/
def Obligations.EveryAddressHasItsOneRegion : Prop :=
  ∀ a : Addr,
    (region a = .cartRom ↔ a.toNat ≤ 0x7FFF) ∧
    (region a = .vram ↔ 0x8000 ≤ a.toNat ∧ a.toNat ≤ 0x9FFF) ∧
    (region a = .cartRam ↔ 0xA000 ≤ a.toNat ∧ a.toNat ≤ 0xBFFF) ∧
    (region a = .wram ↔ 0xC000 ≤ a.toNat ∧ a.toNat ≤ 0xDFFF) ∧
    (region a = .echo ↔ 0xE000 ≤ a.toNat ∧ a.toNat ≤ 0xFDFF) ∧
    (region a = .oam ↔ 0xFE00 ≤ a.toNat ∧ a.toNat ≤ 0xFE9F) ∧
    (region a = .unmapped ↔ (0xFEA0 ≤ a.toNat ∧ a.toNat ≤ 0xFEFF) ∨ a.toNat = 0xFF03 ∨
      (0xFF08 ≤ a.toNat ∧ a.toNat ≤ 0xFF0E)) ∧
    (region a = .joyp ↔ a.toNat = 0xFF00) ∧
    (region a = .serial ↔ 0xFF01 ≤ a.toNat ∧ a.toNat ≤ 0xFF02) ∧
    (region a = .timer ↔ 0xFF04 ≤ a.toNat ∧ a.toNat ≤ 0xFF07) ∧
    (region a = .ifReg ↔ a.toNat = 0xFF0F) ∧
    (region a = .sound ↔ 0xFF10 ≤ a.toNat ∧ a.toNat ≤ 0xFF3F) ∧
    (region a = .lcdreg ↔ (0xFF40 ≤ a.toNat ∧ a.toNat ≤ 0xFF43) ∨ a.toNat = 0xFF45 ∨
      (0xFF47 ≤ a.toNat ∧ a.toNat ≤ 0xFF4B)) ∧
    (region a = .ly ↔ a.toNat = 0xFF44) ∧
    (region a = .dma ↔ a.toNat = 0xFF46) ∧
    (region a = .cgb ↔ 0xFF4C ≤ a.toNat ∧ a.toNat ≤ 0xFF7F) ∧
    (region a = .hram ↔ 0xFF80 ≤ a.toNat ∧ a.toNat ≤ 0xFFFE) ∧
    (region a = .ie ↔ a.toNat = 0xFFFF)

/-- 20_memory.md R45 to R48: where an access to a storage window reaches, read or write, as an offset from the window's
start; an ECHO address and the WRAM address 0x2000 below it are the same byte. -/
def Obligations.StorageAccessesReachTheWindowOffset : Prop :=
  ∀ (b : BusState) (a : Addr) (v : Byte),
    (0x8000 ≤ a.toNat ∧ a.toNat ≤ 0x9FFF →
      memRead b a = .done (Memory.readByte b.video.vram (a.toNat - 0x8000)) ∧
      memWrite b a v = .done { b with
        video := { b.video with vram := Memory.writeByte b.video.vram (a.toNat - 0x8000) v } }) ∧
    (0xC000 ≤ a.toNat ∧ a.toNat ≤ 0xDFFF →
      memRead b a = .done (Memory.readByte b.wram (a.toNat - 0xC000)) ∧
      memWrite b a v = .done { b with wram := Memory.writeByte b.wram (a.toNat - 0xC000) v }) ∧
    (0xE000 ≤ a.toNat ∧ a.toNat ≤ 0xFDFF →
      memRead b a = .done (Memory.readByte b.wram (a.toNat - 0xE000)) ∧
      memWrite b a v = .done { b with wram := Memory.writeByte b.wram (a.toNat - 0xE000) v } ∧
      memRead b a = memRead b (a - 0x2000) ∧ memWrite b a v = memWrite b (a - 0x2000) v) ∧
    (0xFE00 ≤ a.toNat ∧ a.toNat ≤ 0xFE9F →
      memRead b a = .done (Memory.readByte b.video.oam (a.toNat - 0xFE00)) ∧
      memWrite b a v = .done { b with
        video := { b.video with oam := Memory.writeByte b.video.oam (a.toNat - 0xFE00) v } }) ∧
    (0xFF80 ≤ a.toNat ∧ a.toNat ≤ 0xFFFE →
      memRead b a = .done (Memory.readByte b.hram (a.toNat - 0xFF80)) ∧
      memWrite b a v = .done { b with hram := Memory.writeByte b.hram (a.toNat - 0xFF80) v })

/-! ### READ -/

/-- 40_byte_read.md R82, R83, R84, R85, R96: the row of the address, the byte stored at the masked index, and nothing else
changes. -/
def Obligations.StorageReadsReturnTheStoredByte : Prop :=
  ∀ (s : State) (a : Addr), s.accepting →
    (0x8000 ≤ a.toNat ∧ a.toNat ≤ 0x9FFF → decodeRead a = .rdVram a ∧
      ∃ t, exec (.rdVram a) s = .next t ∧ t.bus = s.bus ∧ t.pending = s.pending ∧
        t.response = .byte (Memory.readByte s.bus.video.vram (a &&& 0x1FFF#16).toNat)) ∧
    (0xC000 ≤ a.toNat ∧ a.toNat ≤ 0xDFFF → decodeRead a = .rdWram a ∧
      ∃ t, exec (.rdWram a) s = .next t ∧ t.bus = s.bus ∧ t.pending = s.pending ∧
        t.response = .byte (Memory.readByte s.bus.wram (a &&& 0x1FFF#16).toNat)) ∧
    (0xE000 ≤ a.toNat ∧ a.toNat ≤ 0xFDFF → decodeRead a = .rdEcho a ∧
      ∃ t, exec (.rdEcho a) s = .next t ∧ t.bus = s.bus ∧ t.pending = s.pending ∧
        t.response = .byte (Memory.readByte s.bus.wram (a &&& 0x1FFF#16).toNat)) ∧
    (0xFE00 ≤ a.toNat ∧ a.toNat ≤ 0xFE9F → decodeRead a = .rdOam a ∧
      ∃ t, exec (.rdOam a) s = .next t ∧ t.bus = s.bus ∧ t.pending = s.pending ∧
        t.response = .byte (Memory.readByte s.bus.video.oam (a &&& 0xFF#16).toNat)) ∧
    (0xFF80 ≤ a.toNat ∧ a.toNat ≤ 0xFFFE → decodeRead a = .rdHram a ∧
      ∃ t, exec (.rdHram a) s = .next t ∧ t.bus = s.bus ∧ t.pending = s.pending ∧
        t.response = .byte (Memory.readByte s.bus.hram (a &&& 0x7F#16).toNat))

/-- 40_byte_read.md R90, R97: IF and IE read as stored, all 8 bits, and a read does not clear IF. -/
def Obligations.InterruptRegisterReads : Prop :=
  decodeRead 0xFF0F#16 = .rdIf ∧ decodeRead 0xFFFF#16 = .rdIe ∧
  ∀ s : State, s.accepting →
    (∃ t, exec .rdIf s = .next t ∧ t.bus = s.bus ∧ t.pending = s.pending ∧ t.response = .byte s.bus.ifReg) ∧
    (∃ t, exec .rdIe s = .next t ∧ t.bus = s.bus ∧ t.pending = s.pending ∧ t.response = .byte s.bus.ieReg)

/-- 40_byte_read.md R93: a read of LY returns 148 whatever is stored, and the stored value is neither read nor changed. -/
def Obligations.LyReadsAs148 : Prop :=
  decodeRead 0xFF44#16 = .rdLy ∧
  ∀ s : State, s.accepting →
    ∃ t, exec .rdLy s = .next t ∧ t.bus = s.bus ∧ t.pending = s.pending ∧ t.response = .byte 148#8

/-- 40_byte_read.md R92: the ten other video registers read as stored. Which register stands at which address is the
spec's decision D3. -/
def Obligations.LcdRegisterReads : Prop :=
  ∀ s : State, s.accepting →
    exec (.rdLcdreg 0xFF40#16) s = .next { s with pos := s.pos + 1, response := .byte s.bus.video.regs.lcdc } ∧
    exec (.rdLcdreg 0xFF41#16) s = .next { s with pos := s.pos + 1, response := .byte s.bus.video.regs.stat } ∧
    exec (.rdLcdreg 0xFF42#16) s = .next { s with pos := s.pos + 1, response := .byte s.bus.video.regs.scy } ∧
    exec (.rdLcdreg 0xFF43#16) s = .next { s with pos := s.pos + 1, response := .byte s.bus.video.regs.scx } ∧
    exec (.rdLcdreg 0xFF45#16) s = .next { s with pos := s.pos + 1, response := .byte s.bus.video.regs.lyc } ∧
    exec (.rdLcdreg 0xFF47#16) s = .next { s with pos := s.pos + 1, response := .byte s.bus.video.regs.bgp } ∧
    exec (.rdLcdreg 0xFF48#16) s = .next { s with pos := s.pos + 1, response := .byte s.bus.video.regs.obp0 } ∧
    exec (.rdLcdreg 0xFF49#16) s = .next { s with pos := s.pos + 1, response := .byte s.bus.video.regs.obp1 } ∧
    exec (.rdLcdreg 0xFF4A#16) s = .next { s with pos := s.pos + 1, response := .byte s.bus.video.regs.wy } ∧
    exec (.rdLcdreg 0xFF4B#16) s = .next { s with pos := s.pos + 1, response := .byte s.bus.video.regs.wx }

/-- 40_byte_read.md R86, R91: unmapped and sound addresses read 0x00 whatever was written there, and it is no error. -/
def Obligations.UnmappedAndSoundReadZero : Prop :=
  ∀ (s : State) (a : Addr), s.accepting →
    ((0xFEA0 ≤ a.toNat ∧ a.toNat ≤ 0xFEFF) ∨ a.toNat = 0xFF03 ∨ (0xFF08 ≤ a.toNat ∧ a.toNat ≤ 0xFF0E) →
      decodeRead a = .rdUnmapped a ∧ ∃ t, exec (.rdUnmapped a) s = .next t ∧ t.bus = s.bus ∧
        t.pending = s.pending ∧ t.response = .byte 0x00#8) ∧
    (0xFF10 ≤ a.toNat ∧ a.toNat ≤ 0xFF3F →
      decodeRead a = .rdSound a ∧ ∃ t, exec (.rdSound a) s = .next t ∧ t.bus = s.bus ∧
        t.pending = s.pending ∧ t.response = .byte 0x00#8)

/-- 40_byte_read.md R94: a read of 0xFF46 returns 0x00, by the spec's decision D6. -/
def Obligations.DmaRegisterReadsZero : Prop :=
  ∀ s : State, s.accepting → exec .rdDma s = .next { s with pos := s.pos + 1, response := .byte 0x00#8 }

/-- 40_byte_read.md R81, R87, R89: the collaborator's byte at the full address (the spec's decision D7), and no state
changes (D8). The byte is a free value of the model (log entry 5). -/
def Obligations.CollaboratorReads : Prop :=
  ∀ (s : State) (a : Addr), s.accepting →
    (region a = .cartRom ∨ region a = .cartRam → exec (.rdCart a) s =
      .next { s with pos := s.pos + 1, response := .byte (Config.cartRead s.bus.cart a) }) ∧
    exec .rdJoyp s = .next { s with pos := s.pos + 1, response := .byte (Config.inputRead s.bus.input 0xFF00#16) } ∧
    (region a = .timer → exec (.rdTimer a) s =
      .next { s with pos := s.pos + 1, response := .byte (Config.timerRead s.bus.timer a) })

/-- 40_byte_read.md R88, R95: a read of SERIAL or CGB raises UnsupportedFeatureAccess with its address and returns no
value; of the bus nothing but the status changes. -/
def Obligations.SerialAndCgbReadsRaise : Prop :=
  ∀ (s : State) (a : Addr), s.accepting →
    (0xFF01 ≤ a.toNat ∧ a.toNat ≤ 0xFF02 → decodeRead a = .rdSerial a ∧
      ∃ t, exec (.rdSerial a) s = .next t ∧
        t.bus = { s.bus with status := .faulted .unsupportedFeatureAccess a } ∧ t.response = .none) ∧
    (0xFF4C ≤ a.toNat ∧ a.toNat ≤ 0xFF7F → decodeRead a = .rdCgb a ∧
      ∃ t, exec (.rdCgb a) s = .next t ∧
        t.bus = { s.bus with status := .faulted .unsupportedFeatureAccess a } ∧ t.response = .none)

/-- 40_byte_read.md R98 (derived there), 20_memory.md R55: whatever the address, a READ completes; one that does not
fault changes no field of the bus, and one that faults changes only the status. -/
def Obligations.ReadsChangeNoBusState : Prop :=
  ∀ (s : State) (a : Addr), s.accepting → ∃ t, exec (decodeRead a) s = .next t ∧
    ((region a).fatalOnRead = false → t.bus = s.bus ∧ ∃ v, t.response = .byte v) ∧
    ((region a).fatalOnRead = true → t.bus = { s.bus with status := .faulted .unsupportedFeatureAccess a } ∧
      t.response = .none)

/-- 20_memory.md R57 (derived there): outside SERIAL and CGB, reading an address twice gives the same byte. -/
def Obligations.ReadingTwiceGivesTheSameByte : Prop :=
  ∀ (s : State) (a : Addr), s.accepting → (region a).fatalOnRead = false →
    ∃ t u, exec (decodeRead a) s = .next t ∧ exec (decodeRead a) t = .next u ∧ u.response = t.response ∧ u.bus = s.bus

/-! ### WRITE -/

/-- 41_byte_write.md R102, R103, R104, R105, R116: exactly the byte at the masked index takes the value; every other byte
of the array and every other field stays. -/
def Obligations.StorageWritesStoreExactlyOneByte : Prop :=
  ∀ (s : State) (a : Addr) (v : Byte), s.accepting →
    (region a = .vram → ∃ m, exec (.wrVram a v) s = .next { s with
        bus := { s.bus with video := { s.bus.video with vram := m } }, pos := s.pos + 1, response := .none } ∧
      ∀ i, Memory.readByte m i = if i = (a &&& 0x1FFF#16).toNat then v else Memory.readByte s.bus.video.vram i) ∧
    (region a = .wram → ∃ m, exec (.wrWram a v) s = .next { s with
        bus := { s.bus with wram := m }, pos := s.pos + 1, response := .none } ∧
      ∀ i, Memory.readByte m i = if i = (a &&& 0x1FFF#16).toNat then v else Memory.readByte s.bus.wram i) ∧
    (region a = .echo → ∃ m, exec (.wrEcho a v) s = .next { s with
        bus := { s.bus with wram := m }, pos := s.pos + 1, response := .none } ∧
      ∀ i, Memory.readByte m i = if i = (a &&& 0x1FFF#16).toNat then v else Memory.readByte s.bus.wram i) ∧
    (region a = .oam → ∃ m, exec (.wrOam a v) s = .next { s with
        bus := { s.bus with video := { s.bus.video with oam := m } }, pos := s.pos + 1, response := .none } ∧
      ∀ i, Memory.readByte m i = if i = (a &&& 0xFF#16).toNat then v else Memory.readByte s.bus.video.oam i) ∧
    (region a = .hram → ∃ m, exec (.wrHram a v) s = .next { s with
        bus := { s.bus with hram := m }, pos := s.pos + 1, response := .none } ∧
      ∀ i, Memory.readByte m i = if i = (a &&& 0x7F#16).toNat then v else Memory.readByte s.bus.hram i)

/-- 41_byte_write.md R110, R117: all 8 bits of IF, or of IE, take the value, and nothing else changes: a write to IE does
not act on IF. -/
def Obligations.InterruptRegisterWrites : Prop :=
  (∀ v : Byte, decodeWrite 0xFF0F#16 v = .wrIf v ∧ decodeWrite 0xFFFF#16 v = .wrIe v) ∧
  ∀ (s : State) (v : Byte), s.accepting →
    (∃ t, exec (.wrIf v) s = .next t ∧ t.bus = { s.bus with ifReg := v } ∧ t.pending = s.pending) ∧
    (∃ t, exec (.wrIe v) s = .next t ∧ t.bus = { s.bus with ieReg := v } ∧ t.pending = s.pending)

/-- 41_byte_write.md R112: all 8 bits of the register at the address take the value (D5), and nothing else changes. Which
register stands at which address is the spec's decision D3. -/
def Obligations.LcdRegisterWrites : Prop :=
  ∀ (s : State) (v : Byte), s.accepting →
    let after := fun (r : VideoRegs) =>
      { s with bus := { s.bus with video := { s.bus.video with regs := r } }, pos := s.pos + 1, response := .none }
    let r := s.bus.video.regs
    exec (.wrLcdreg 0xFF40#16 v) s = .next (after { r with lcdc := v }) ∧
    exec (.wrLcdreg 0xFF41#16 v) s = .next (after { r with stat := v }) ∧
    exec (.wrLcdreg 0xFF42#16 v) s = .next (after { r with scy := v }) ∧
    exec (.wrLcdreg 0xFF43#16 v) s = .next (after { r with scx := v }) ∧
    exec (.wrLcdreg 0xFF45#16 v) s = .next (after { r with lyc := v }) ∧
    exec (.wrLcdreg 0xFF47#16 v) s = .next (after { r with bgp := v }) ∧
    exec (.wrLcdreg 0xFF48#16 v) s = .next (after { r with obp0 := v }) ∧
    exec (.wrLcdreg 0xFF49#16 v) s = .next (after { r with obp1 := v }) ∧
    exec (.wrLcdreg 0xFF4A#16 v) s = .next (after { r with wy := v }) ∧
    exec (.wrLcdreg 0xFF4B#16 v) s = .next (after { r with wx := v })

/-- 41_byte_write.md R113: a write to LY stores the value, and reads of LY still return 148. -/
def Obligations.LyWriteStoresAndStillReads148 : Prop :=
  ∀ (s : State) (v : Byte), s.accepting → ∃ t,
    exec (.wrLy v) s = .next t ∧
    t = { s with bus := { s.bus with video := { s.bus.video with regs := { s.bus.video.regs with ly := v } } },
                 pos := s.pos + 1, response := .none } ∧
    exec .rdLy t = .next { t with pos := t.pos + 1, response := .byte 148#8 }

/-- 41_byte_write.md R106, R108, R111, R115 and 20_memory.md R44: the write changes no state of the block and raises
nothing. -/
def Obligations.IgnoredWritesChangeNothing : Prop :=
  ∀ (s : State) (a : Addr) (v : Byte), s.accepting →
    ((0xFEA0 ≤ a.toNat ∧ a.toNat ≤ 0xFEFF) ∨ a.toNat = 0xFF03 ∨ (0xFF08 ≤ a.toNat ∧ a.toNat ≤ 0xFF0E) →
      decodeWrite a v = .wrUnmapped a v ∧
      ∃ t, exec (.wrUnmapped a v) s = .next t ∧ t.bus = s.bus ∧ t.pending = s.pending) ∧
    (0xFF01 ≤ a.toNat ∧ a.toNat ≤ 0xFF02 → decodeWrite a v = .wrSerial a v ∧
      ∃ t, exec (.wrSerial a v) s = .next t ∧ t.bus = s.bus ∧ t.pending = s.pending) ∧
    (0xFF10 ≤ a.toNat ∧ a.toNat ≤ 0xFF3F → decodeWrite a v = .wrSound a v ∧
      ∃ t, exec (.wrSound a v) s = .next t ∧ t.bus = s.bus ∧ t.pending = s.pending) ∧
    (0xFF4C ≤ a.toNat ∧ a.toNat ≤ 0xFF7F → decodeWrite a v = .wrCgb a v ∧
      ∃ t, exec (.wrCgb a v) s = .next t ∧ t.bus = s.bus ∧ t.pending = s.pending)

/-- 41_byte_write.md R101, R107, R109: the write is one more operation in that collaborator's history (the model's form
of its state, log entry 5), with the full address (D7); nothing else changes. The latch it leaves is free (log entry 6). -/
def Obligations.CollaboratorWrites : Prop :=
  ∀ (s : State) (a : Addr) (v : Byte), s.accepting →
    (region a = .cartRom ∨ region a = .cartRam → exec (.wrCart a v) s = .next { s with
      bus := { s.bus with cart := { log := ⟨a, v⟩ :: s.bus.cart.log } }, pos := s.pos + 1, response := .none }) ∧
    (∃ latch, exec (.wrJoyp v) s = .next { s with
      bus := { s.bus with input := { log := .write 0xFF00#16 v :: s.bus.input.log, latch := latch } },
      pos := s.pos + 1, response := .none }) ∧
    (region a = .timer → ∃ latch, exec (.wrTimer a v) s = .next { s with
      bus := { s.bus with timer := { log := .write a v :: s.bus.timer.log, latch := latch } },
      pos := s.pos + 1, response := .none })

/-- 20_memory.md R46, R56, R60 and 41_byte_write.md R118 (derived there; that every bit of LCDREG, IF and IE is stored is
the spec's decision D5): after a write to a storage or register address
that reads back, that address, and its WRAM or ECHO alias, reads the value, and EVERY other address reads as before. -/
def Obligations.WriteThenReadAnywhere : Prop :=
  ∀ (s : State) (a : Addr) (v : Byte), s.accepting →
    region a ∈ [Region.vram, .wram, .echo, .oam, .hram, .ifReg, .ie, .lcdreg] →
    ∃ t, exec (decodeWrite a v) s = .next t ∧ t.bus.status = .running ∧
      ∀ x : Addr, peek t.bus x =
        if x = a ∨ (region a ∈ [Region.wram, .echo] ∧ region x ∈ [Region.wram, .echo] ∧
          x.toNat % 0x2000 = a.toNat % 0x2000)
        then some v else peek s.bus x

/-- 41_byte_write.md R118 (derived there), 20_memory.md R44, R56: a write that stores nothing on the bus (an ignored write,
a write to LY, a write to a collaborator) leaves every address outside its own region reading as before; the ignored ones
and LY leave every address so. -/
def Obligations.NonStoringWritesLeaveReadsAlone : Prop :=
  ∀ (s : State) (a : Addr) (v : Byte), s.accepting →
    (region a ∈ [Region.unmapped, .serial, .sound, .cgb, .ly] → ∃ t, exec (decodeWrite a v) s = .next t ∧
      ∀ x : Addr, peek t.bus x = peek s.bus x) ∧
    (region a ∈ [Region.cartRom, .cartRam] → ∃ t, exec (decodeWrite a v) s = .next t ∧
      ∀ x : Addr, region x ∉ [Region.cartRom, .cartRam] → peek t.bus x = peek s.bus x) ∧
    (region a ∈ [Region.joyp, .timer] → ∃ t, exec (decodeWrite a v) s = .next t ∧
      ∀ x : Addr, region x ≠ region a → peek t.bus x = peek s.bus x)

/-! ### The OAM DMA transfer -/

/-- 44_dma.md R142, R147, R148 (derived there): from any page but 0xFF the transfer completes: `oam[i]` takes the byte
that source address page·0x100 + i read as before, for the 160 values of i; every other field and every other address
stays. The pseudo-operation DMA does the same. -/
def Obligations.DmaCopies160Bytes : Prop :=
  ∀ (s : State) (page : Byte), s.accepting → page ≠ 0xFF#8 → ∃ m,
    exec (.wrDma page) s = .next { s with
      bus := { s.bus with video := { s.bus.video with oam := m } }, pos := s.pos + 1, response := .none } ∧
    exec (.dma page) s = .next { s with
      bus := { s.bus with video := { s.bus.video with oam := m } }, pos := s.pos + 1, response := .none } ∧
    (∀ i, i < 160 → some (Memory.readByte m i) = peek s.bus (BitVec.ofNat 16 (page.toNat * 256 + i))) ∧
    (∀ i, 160 ≤ i → Memory.readByte m i = Memory.readByte s.bus.video.oam i) ∧
    (∀ x : Addr, region x ≠ .oam →
      peek { s.bus with video := { s.bus.video with oam := m } } x = peek s.bus x)

/-- 44_dma.md R146 (derived there, with the spec's decision D26): a transfer from page 0xFF writes `oam[0]` from the input
controller and then faults at 0xFF01; every other byte and field stays. -/
def Obligations.DmaFromPageFFFaults : Prop :=
  ∀ s : State, s.accepting → ∃ m,
    exec (.wrDma 0xFF#8) s = .next { s with
      bus := { s.bus with video := { s.bus.video with oam := m }
                          status := .faulted .unsupportedFeatureAccess 0xFF01#16 },
      pos := s.pos + 1, response := .none } ∧
    exec (.dma 0xFF#8) s = exec (.wrDma 0xFF#8) s ∧
    ∀ i, Memory.readByte m i =
      if i = 0 then Config.inputRead s.bus.input 0xFF00#16 else Memory.readByte s.bus.video.oam i

/-- 44_dma.md R148 (derived there): a transfer from page 0xFE, OAM onto itself, changes nothing at all. The premise is the
memory's canonical form, an invariant of the machine (StepKeepsTheInvariant). -/
def Obligations.DmaFromOamItselfChangesNothing : Prop :=
  ∀ s : State, s.accepting → s.bus.memoriesWf →
    exec (.wrDma 0xFE#8) s = .next { s with pos := s.pos + 1, response := .none }

/-! ### Word accesses -/

/-- 42_word_access.md R120 (low address first and the wrap to 0x0000 by the spec's decision D9; the response port and the
position, moved by two commands, are the model's, log entry 8): RDW returns `hi ++ lo` and changes nothing. -/
def Obligations.RdwReturnsHighThenLow : Prop :=
  ∀ (s : State) (a : Addr) (lo hi : Byte), s.accepting → peek s.bus a = some lo → peek s.bus (a + 1) = some hi →
    exec (.rdw a) s = .next { s with pos := s.pos + 2, response := .word (hi ++ lo) }

/-- 42_word_access.md R120, R123 (derived there, with D9): a raise in the first byte leaves out the second; a raise in
the second is recorded at its own address. -/
def Obligations.RdwRaisesAtItsFirstFatalByte : Prop :=
  ∀ (s : State) (a : Addr), s.accepting →
    ((region a).fatalOnRead = true → exec (.rdw a) s = .next { s with
      bus := { s.bus with status := .faulted .unsupportedFeatureAccess a }, pos := s.pos + 1, response := .none }) ∧
    ((region a).fatalOnRead = false → (region (a + 1)).fatalOnRead = true → exec (.rdw a) s = .next { s with
      bus := { s.bus with status := .faulted .unsupportedFeatureAccess (a + 1) }, pos := s.pos + 2, response := .none })

/-- 42_word_access.md R121, R122, R123 (D9): WRW is the low byte's WRITE and then the high byte's, in the state the first
left; a raise in the first leaves out the second. That at 0xFF46 too the second WRITE is at `a + 1` (BGP, where R121's
corner case names LY) is the model's deduction (log entry 19). -/
def Obligations.WrwIsTwoWrites : Prop :=
  ∀ (s t : State) (a : Addr) (w : Word), exec (decodeWrite a (w.extractLsb' 0 8)) s = .next t →
    (t.bus.status = .running → exec (.wrw a w) s = exec (decodeWrite (a + 1) (w.extractLsb' 8 8)) t) ∧
    (t.bus.status ≠ .running → exec (.wrw a w) s = .next t)

/-- 42_word_access.md R121: WRW completes, unless a byte lands on the DMA register, where the page decides (R146). -/
def Obligations.WrwCompletes : Prop :=
  ∀ (s : State) (a : Addr) (w : Word), s.accepting →
    (a ≠ 0xFF46#16 ∨ w.toNat % 256 ≠ 0xFF) → (a + 1 ≠ 0xFF46#16 ∨ w.toNat / 256 ≠ 0xFF) →
    ∃ t, exec (.wrw a w) s = .next t ∧ t.bus.status = .running ∧ t.pos = s.pos + 2 ∧ t.response = .none ∧
      t.pending = s.pending

/-- 42_word_access.md R124 (derived there): WRW and then RDW returns the word, when both bytes lie in regions that read
back what was written. -/
def Obligations.WordRoundTrip : Prop :=
  ∀ (s : State) (a : Addr) (w : Word), s.accepting →
    region a ∈ [Region.vram, .wram, .echo, .oam, .hram, .ifReg, .ie, .lcdreg] →
    region (a + 1) ∈ [Region.vram, .wram, .echo, .oam, .hram, .ifReg, .ie, .lcdreg] →
    ∃ t, exec (.wrw a w) s = .next t ∧
      exec (.rdw a) t = .next { t with pos := t.pos + 2, response := .word w }

/-! ### ADVANCE -/

/-- 45_advance.md R152, R156: IF gains every bit of the three request bytes and loses none, and the three latches are
zero afterwards. What a device requests in its advance is a free value (log entries 5 and 7); the input controller's and
the timer's byte holds as well what a write left in the latch (10_state.md R27, log entry 6). -/
def Obligations.AdvanceMergesAndClearsEveryRequest : Prop :=
  ∀ (s : State) (c : Cycles), s.accepting → ∃ t, exec (.adv c) s = .next t ∧
    t.bus.ifReg = ((s.bus.ifReg ||| Config.renderLatch s.bus.video c) |||
        (s.bus.input.latch ||| Config.inputAdvanceLatch s.bus.input c)) |||
      (s.bus.timer.latch ||| Config.timerAdvanceLatch s.bus.timer (BitVec.ofNat 16 (4 * c.toNat))) ∧
    t.bus.video.render.latch = 0x00#8 ∧ t.bus.input.latch = 0x00#8 ∧ t.bus.timer.latch = 0x00#8

/-- 10_state.md R27, 41_byte_write.md R107, R109: every request a write leaves in the input controller's or the timer's
latch is in IF after the next ADVANCE. Which requests it leaves is a free value (log entry 6). -/
def Obligations.WriteRequestsReachIfAtTheNextAdvance : Prop :=
  ∀ (s : State) (v : Byte) (c : Cycles), s.accepting →
    (∃ t u, exec (.wrJoyp v) s = .next t ∧ exec (.adv c) t = .next u ∧
      t.bus.input.latch &&& u.bus.ifReg = t.bus.input.latch ∧
      t.bus.input.latch = s.bus.input.latch ||| Config.inputWriteLatch s.bus.input 0xFF00#16 v) ∧
    (∀ a : Addr, 0xFF04 ≤ a.toNat ∧ a.toNat ≤ 0xFF07 →
      ∃ t u, exec (.wrTimer a v) s = .next t ∧ exec (.adv c) t = .next u ∧
        t.bus.timer.latch &&& u.bus.ifReg = t.bus.timer.latch ∧
        t.bus.timer.latch = s.bus.timer.latch ||| Config.timerWriteLatch s.bus.timer a v)

/-- 45_advance.md R150, R151, R153 (16-bit product by the spec's decision D10), R159 (derived there), 43_video_model.md
R131 (D12): what ADV hands each collaborator, and what it leaves unchanged. The collaborators' histories are the model's
form of their states (log entries 5 and 7). -/
def Obligations.AdvanceAdvancesTheThreeDevicesOnly : Prop :=
  ∀ (s : State) (c : Cycles), s.accepting → ∃ t, exec (.adv c) s = .next t ∧
    t.bus.video.regs = Config.renderRegs s.bus.video c ∧
    t.bus.video.render.log = ⟨s.bus.video.regs, s.bus.video.vram, s.bus.video.oam, c⟩ :: s.bus.video.render.log ∧
    t.bus.input.log = .advance c :: s.bus.input.log ∧
    (∃ ticks : BitVec 16, ticks.toNat = 4 * c.toNat ∧ t.bus.timer.log = .advance ticks :: s.bus.timer.log) ∧
    t.bus.wram = s.bus.wram ∧ t.bus.hram = s.bus.hram ∧ t.bus.ieReg = s.bus.ieReg ∧ t.bus.cart = s.bus.cart ∧
    t.bus.status = s.bus.status ∧ t.pos = s.pos + 1 ∧ t.pending = s.pending ∧ t.response = .none

/-- 10_state.md R34 and 43_video_model.md R133: a device's advance neither reads nor writes bus-owned state or another
collaborator's: two states that agree on one device leave that device equal, whatever else differs. -/
def Obligations.AdvanceOfADeviceDependsOnItAlone : Prop :=
  ∀ (s s' t t' : State) (c : Cycles), s.accepting → s'.accepting →
    exec (.adv c) s = .next t → exec (.adv c) s' = .next t' →
    (s.bus.video = s'.bus.video → t.bus.video = t'.bus.video) ∧
    (s.bus.input = s'.bus.input → t.bus.input = t'.bus.input) ∧
    (s.bus.timer = s'.bus.timer → t.bus.timer = t'.bus.timer)

/-! ### INIT and reset -/

/-- 46_init.md R160, R164, 10_state.md R35, 70_reset_and_hazards.md R195: INIT, as the first command and with the default
power-on table, leaves the listed state whatever was there before. The register values are those of the spec's default
table (D13, log entry 4), zeros by D15, the latches log entry 6, the histories log entry 5; the table stands in the state
by log entry 18. -/
def Obligations.InitLeavesTheResetState : Prop :=
  ∀ s : State, s.bus.status = .running → s.pos = 0 → s.powerOnTable = Config.defaultPowerOnTable →
    exec .init s = .next { s with
      bus := { wram := [], hram := [], ifReg := 0x00#8, ieReg := 0x00#8
               video := { regs := { lcdc := 0x91#8, stat := 0x00#8, scy := 0x00#8, scx := 0x00#8, ly := 0x00#8
                                    lyc := 0x00#8, bgp := 0xFC#8, obp0 := 0xFF#8, obp1 := 0xFF#8, wy := 0x00#8
                                    wx := 0x00#8 }
                          vram := [], oam := [], render := { log := [], latch := 0x00#8 } }
               cart := { log := [] }
               input := { log := [], latch := 0x00#8 }
               timer := { log := [.write 0xFF07#16 0x00#8, .write 0xFF06#16 0x00#8, .write 0xFF05#16 0x00#8]
                          latch := 0x00#8 }
               status := .running }
      pos := 1, response := .none }

/-- 70_reset_and_hazards.md R195, 10_state.md R35: the reset state is the one INIT leaves from power-on with the default
table, and every byte of the four arrays reads 0x00 in it. Its register values are the default table's (PRESUMED, log
entry 4); its position, its empty command stream and its table are the model's (log entries 1, 3 and 18). -/
def Obligations.ResetIsWhatInitLeaves : Prop :=
  exec .init State.powerOn = .next State.reset ∧
  (∀ i, Memory.readByte State.reset.bus.wram i = 0x00#8 ∧ Memory.readByte State.reset.bus.hram i = 0x00#8 ∧
    Memory.readByte State.reset.bus.video.vram i = 0x00#8 ∧ Memory.readByte State.reset.bus.video.oam i = 0x00#8)

/-- 46_init.md R160, R161, 60_exceptions.md R191: whatever table the host has chosen, INIT as the first command gives a
next state; it is Running, with the three latches 0x00 (log entry 6), exactly when no entry hands page 0xFF to the DMA
register, and else Faulted at 0xFF01 (44_dma.md R146, D26). -/
def Obligations.InitCompletesForEveryTableWithoutAFaultingDma : Prop :=
  ∀ s : State, s.bus.status = .running → s.pos = 0 → ∃ t, exec .init s = .next t ∧
    t.pos = 1 ∧ t.pending = s.pending ∧ t.powerOnTable = s.powerOnTable ∧
    ((∀ e ∈ s.powerOnTable, e.1 ≠ 0xFF46#16 ∨ e.2 ≠ 0xFF#8) → t.bus.status = .running ∧ t.bus.latchesClear) ∧
    ((∃ e ∈ s.powerOnTable, e.1 = 0xFF46#16 ∧ e.2 = 0xFF#8) →
      t.bus.status = .faulted .unsupportedFeatureAccess 0xFF01#16)

/-- 46_init.md R160, R161, 10_state.md R35: for every table without an entry for the DMA register, a video register (LY
aside), IF or IE holds after INIT the value of the table's last entry for its address, and 0x00 (D15) where the table has
none. -/
def Obligations.InitSetsTheRegistersTheTableNames : Prop :=
  ∀ (s : State) (pre post : List (Addr × Byte)) (a : Addr) (v : Byte), s.bus.status = .running → s.pos = 0 →
    region a ∈ [Region.lcdreg, .ifReg, .ie] →
    (∀ e ∈ pre ++ post, region e.1 ≠ .dma) → (∀ e ∈ post, e.1 ≠ a) →
    (s.powerOnTable = pre ++ (a, v) :: post → ∃ t, exec .init s = .next t ∧ peek t.bus a = some v) ∧
    (s.powerOnTable = post → ∃ t, exec .init s = .next t ∧ peek t.bus a = some 0x00#8)

/-- 46_init.md R162 (the spec's decision D16), 30_encoding.md R73: a running machine refuses INIT anywhere but first, and
refuses a well-formed command that is not INIT as the first. -/
def Obligations.InitIsFirstAndOnlyFirst : Prop :=
  ∀ s : State, s.bus.status = .running →
    (s.pos ≠ 0 → exec .init s = .refused .lateInit) ∧
    (s.pos = 0 → ∀ i : Instr, i ≠ .init → exec i s = .refused .firstNotInit)

/-! ### Fatal conditions, refusals and the step -/

/-- A step runs the decoded command: 30_encoding.md R69, 20_memory.md R60. The step takes the word off the command
stream (the model's, log entry 1); the meaning moves the position. -/
def Obligations.StepRunsTheDecodedCommand : Prop :=
  ∀ (s : State) (w : CmdWord) (rest : List CmdWord) (i : Instr),
    s.bus.status = .running → s.pending = w :: rest → decode w = .ok i →
    step s = exec i { s with pending := rest }

/-- 60_exceptions.md R175: once Faulted, no command is accepted, INIT among them. That the stop is the fault `halted` is
the model's reading (log entry 9). -/
def Obligations.FaultedAcceptsNoCommand : Prop :=
  ∀ (s : State) (kind : FatalKind) (a : Addr), s.bus.status = .faulted kind a →
    step s = .fault (.halted kind a) ∧ ∀ i : Instr, exec i s = .fault (.halted kind a)

/-- 30_encoding.md R69, R73 (the spec's decision D18), 60_exceptions.md R176: which words a running machine refuses, and
under which name. -/
def Obligations.MalformedWordsAreRefused : Prop :=
  ∀ (s : State) (w : CmdWord) (rest : List CmdWord), s.bus.status = .running → s.pending = w :: rest →
    (w.toNat / 2 ^ 24 % 64 ≠ 0 → step s = .refused (.malformed .reservedBits)) ∧
    (w.toNat / 2 ^ 24 = 0x00 → w.toNat % 256 ≠ 0 → step s = .refused (.malformed .readDataNonZero)) ∧
    (w.toNat / 2 ^ 24 = 0x80 → w.toNat / 256 % 65536 ≠ 0 → step s = .refused (.malformed .advanceAddrNonZero)) ∧
    (w.toNat / 2 ^ 24 = 0xC0 → w.toNat % 2 ^ 24 ≠ 0 → step s = .refused (.malformed .initOperandsNonZero))

/-- 60_exceptions.md R171, R172 (derived there): a step that leaves a running machine Faulted recorded an
UnsupportedFeatureAccess, at an address of SERIAL or CGB, and the command was a READ of that address, a DMA from page
0xFF, or an INIT whose table holds such a DMA (46_init.md R160). -/
def Obligations.OnlySerialAndCgbReadsFault : Prop :=
  ∀ (s t : State) (w : CmdWord) (rest : List CmdWord) (kind : FatalKind) (a : Addr),
    s.bus.status = .running → s.pending = w :: rest → step s = .next t → t.bus.status = .faulted kind a →
    kind = .unsupportedFeatureAccess ∧ (region a).fatalOnRead = true ∧
    (decode w = .ok (.rdSerial a) ∨ decode w = .ok (.rdCgb a) ∨
      (decode w = .ok (.wrDma 0xFF#8) ∧ a = 0xFF01#16) ∨
      (decode w = .ok .init ∧ (0xFF46#16, 0xFF#8) ∈ s.powerOnTable ∧ a = 0xFF01#16))

/-- 43_video_model.md R125, R126, R132: the register file's interface raises UnknownRegisterAccess exactly outside the
eleven addresses, on reads and on writes. -/
def Obligations.UnknownVideoRegistersRaise : Prop :=
  ∀ (b : BusState) (a : Addr) (v : Byte),
    let eleven := [0xFF40#16, 0xFF41#16, 0xFF42#16, 0xFF43#16, 0xFF44#16, 0xFF45#16, 0xFF47#16, 0xFF48#16, 0xFF49#16,
      0xFF4A#16, 0xFF4B#16]
    (a ∉ eleven →
      readRegister b a = .raised { b with status := .faulted .unknownRegisterAccess a } ∧
      writeRegister b a v = .raised { b with status := .faulted .unknownRegisterAccess a }) ∧
    (a ∈ eleven → ∃ n, videoRegAt a = some n ∧ readRegister b a = .done (b.video.regs.get n) ∧
      writeRegister b a v = .done { b with video := { b.video with regs := b.video.regs.set n v } })

/-- 43_video_model.md R129, R130 (the spec's decision D19): the sprite-memory interface refuses an index of 160 or more,
and otherwise reads or writes `oam[addr & 0xFF]`. -/
def Obligations.SpriteMemoryIndexIsChecked : Prop :=
  ∀ (b : BusState) (a : Addr) (v : Byte),
    (160 ≤ a.toNat % 256 → readSpriteMemory b a = .refused .oamIndexOutOfRange ∧
      writeSpriteMemory b a v = .refused .oamIndexOutOfRange) ∧
    (a.toNat % 256 < 160 → readSpriteMemory b a = .done (Memory.readByte b.video.oam (a.toNat % 256)) ∧
      ∃ m, writeSpriteMemory b a v = .done { b with video := { b.video with oam := m } } ∧
        ∀ i, Memory.readByte m i = if i = a.toNat % 256 then v else Memory.readByte b.video.oam i)

/-! ### Whole-machine rules -/

/-- The invariant of the machine: the four arrays stay in their canonical form, and a recorded fault is an
UnsupportedFeatureAccess at an address of SERIAL or CGB (60_exceptions.md R171, R172). -/
def Obligations.StepKeepsTheInvariant : Prop :=
  ∀ s t : State, s.invariant → step s = .next t → t.invariant

/-- The reset state meets the invariant. -/
def Obligations.ResetMeetsTheInvariant : Prop := State.reset.invariant

/-- 10_state.md R29 (the spec's decision D24): a step that takes a command moves the position by exactly one and leaves
the rest of the stream, and the host's power-on table (log entry 18). -/
def Obligations.EveryCommandMovesThePositionByOne : Prop :=
  ∀ (s t : State) (w : CmdWord) (rest : List CmdWord), s.pending = w :: rest → step s = .next t →
    t.pos = s.pos + 1 ∧ t.pending = rest ∧ t.powerOnTable = s.powerOnTable

/-- 10_state.md R17, R30: no step changes IF but ADVANCE, a write to 0xFF0F and INIT; 10_state.md R18: none changes IE
but a write to 0xFFFF and INIT. -/
def Obligations.OnlyTheseCommandsChangeIfAndIe : Prop :=
  ∀ (s t : State) (w : CmdWord) (rest : List CmdWord) (i : Instr), s.pending = w :: rest → decode w = .ok i →
    step s = .next t →
    ((∀ c, i ≠ .adv c) → (∀ v, i ≠ .wrIf v) → i ≠ .init → t.bus.ifReg = s.bus.ifReg) ∧
    ((∀ v, i ≠ .wrIe v) → i ≠ .init → t.bus.ieReg = s.bus.ieReg)

/-- 10_state.md R20 (derived there): no command but INIT, which zeroes it, writes `hram[0x7F]`. -/
def Obligations.TheLastHramByteIsNeverWritten : Prop :=
  ∀ (s t : State) (w : CmdWord) (rest : List CmdWord) (i : Instr), s.pending = w :: rest → decode w = .ok i →
    i ≠ .init → step s = .next t → Memory.readByte t.bus.hram 0x7F = Memory.readByte s.bus.hram 0x7F

/-- 10_state.md R27: the latches stay zero between commands, but for what a write to the input controller or the timer
leaves in that device's own latch (log entry 6); of an INIT that faults on its table's DMA only the video latch is stated. -/
def Obligations.LatchesAreZeroBetweenCommands : Prop :=
  ∀ (s t : State) (w : CmdWord) (rest : List CmdWord) (i : Instr), s.pending = w :: rest → decode w = .ok i →
    step s = .next t → s.bus.latchesClear →
    t.bus.video.render.latch = 0x00#8 ∧
    ((∀ v, i ≠ .wrJoyp v) → (i = .init → t.bus.status = .running) → t.bus.input.latch = 0x00#8) ∧
    ((∀ a v, i ≠ .wrTimer a v) → (i = .init → t.bus.status = .running) → t.bus.timer.latch = 0x00#8)

/-- A request in the input controller's or the timer's latch is never lost: a step that is no INIT leaves it in the latch,
and an ADVANCE in IF. That a held request stays through a later write and through the device's own advance is the model's
deduction (log entry 6) from 10_state.md R27 and 45_advance.md R152. -/
def Obligations.NoRequestIsLost : Prop :=
  ∀ (s t : State) (w : CmdWord) (rest : List CmdWord) (i : Instr), s.pending = w :: rest → decode w = .ok i →
    i ≠ .init → step s = .next t →
    ((∀ c, i ≠ .adv c) → s.bus.input.latch &&& t.bus.input.latch = s.bus.input.latch ∧
      s.bus.timer.latch &&& t.bus.timer.latch = s.bus.timer.latch) ∧
    (∀ c, i = .adv c → s.bus.input.latch &&& t.bus.ifReg = s.bus.input.latch ∧
      s.bus.timer.latch &&& t.bus.ifReg = s.bus.timer.latch)

/-- 60_exceptions.md R171, R175, 70_reset_and_hazards.md R201: the machine stays safe: from every accepting state whose
pending words are all safe (they decode, to no INIT, no READ of SERIAL or CGB and no DMA from page 0xFF), a step gives a
next state, and it is again accepting with all pending words safe. The stream is the model's (log entry 1). -/
def Obligations.StepKeepsASafeStreamSafe : Prop :=
  ∀ s : State, s.safelyLoaded → ∃ t, step s = .next t ∧ t.safelyLoaded

/-- 20_memory.md R64, 60_exceptions.md R171, R192, 70_reset_and_hazards.md R201: a command stream of safe words runs to its
end, one step a command, and succeeds. -/
def Obligations.SafeStreamsRunToTheEnd : Prop :=
  ∀ s : State, s.safelyLoaded →
    ∃ t : State, Sys2Proof.core.run s.pending.length s = .next t ∧ t.succeeded ∧ t.pos = s.pos + s.pending.length
end

