-- ==== Sys2Proof/Laws/Address.lean ====
section
/-! SUPPORT. What the address decoder and the index computations say in plain numbers. -/
namespace Sys2Proof

/-- The range of an address, in digits (00_scope.md R5 ADDR_W). -/
theorem addr_toNat_lt (a : Addr) : a.toNat < 65536 := a.isLt

/-- The range of a byte, in digits (R5 DATA_W). -/
theorem byte_toNat_lt (v : Byte) : v.toNat < 256 := v.isLt

/-- The range of a cycle count, in digits (R5). -/
theorem cycles_toNat_lt (c : Cycles) : c.toNat < 256 := c.isLt

/-- The rows of the table rise, so none overlaps another (R40). -/
theorem regionTable_rises : regionTable.Pairwise (fun r r' => r.last.toNat < r'.first.toNat) := by decide

theorem findRegion_of_mem {a : Addr} {t : List RegionRow} {r : RegionRow}
    (ht : t.Pairwise (fun r r' => r.last.toNat < r'.first.toNat)) (hr : r ∈ t) (h1 : r.first.toNat ≤ a.toNat)
    (h2 : a.toNat ≤ r.last.toNat) : findRegion a t = r.region := by
  induction t with
  | nil => simp at hr
  | cons d rest ih =>
    have hd := List.pairwise_cons.1 ht
    unfold findRegion
    rcases List.mem_cons.1 hr with rfl | hr
    · rw [if_pos (by simp [RegionRow.covers, h1, h2])]
    · have := hd.1 r hr
      rw [if_neg (by simp only [RegionRow.covers, Bool.and_eq_true, decide_eq_true_eq]; omega), ih hd.2 hr]

/-- A row of the table decides the region of every address it covers (R40). -/
theorem region_of_row (r : RegionRow) {a : Addr} (hr : r ∈ regionTable) (h1 : r.first.toNat ≤ a.toNat)
    (h2 : a.toNat ≤ r.last.toNat) : region a = r.region :=
  findRegion_of_mem regionTable_rises hr h1 h2

theorem wramIndex_eq (a : Addr) : wramIndex a = a.toNat % 8192 := by
  simp only [wramIndex, BitVec.toNat_and]
  exact Nat.and_two_pow_sub_one_eq_mod a.toNat 13

theorem vramIndex_eq (a : Addr) : vramIndex a = a.toNat % 8192 := wramIndex_eq a

theorem oamIndex_eq (a : Addr) : oamIndex a = a.toNat % 256 := by
  simp only [oamIndex, BitVec.toNat_and]
  exact Nat.and_two_pow_sub_one_eq_mod a.toNat 8

theorem hramIndex_eq (a : Addr) : hramIndex a = a.toNat % 128 := by
  simp only [hramIndex, BitVec.toNat_and]
  exact Nat.and_two_pow_sub_one_eq_mod a.toNat 7

theorem wramIndex_lt (a : Addr) : wramIndex a < Config.wramSize := by rw [wramIndex_eq]; simp only [Config.wramSize]; omega
theorem vramIndex_lt (a : Addr) : vramIndex a < Config.vramSize := by rw [vramIndex_eq]; simp only [Config.vramSize]; omega
theorem hramIndex_lt (a : Addr) : hramIndex a < Config.hramSize := by rw [hramIndex_eq]; simp only [Config.hramSize]; omega

/-- The region of an address, as the interval it lies in (spec/20_memory.md R40). -/
theorem region_cases (a : Addr) :
    (region a = .cartRom ∧ a.toNat ≤ 0x7FFF) ∨ (region a = .vram ∧ 0x8000 ≤ a.toNat ∧ a.toNat ≤ 0x9FFF) ∨
    (region a = .cartRam ∧ 0xA000 ≤ a.toNat ∧ a.toNat ≤ 0xBFFF) ∨
    (region a = .wram ∧ 0xC000 ≤ a.toNat ∧ a.toNat ≤ 0xDFFF) ∨
    (region a = .echo ∧ 0xE000 ≤ a.toNat ∧ a.toNat ≤ 0xFDFF) ∨
    (region a = .oam ∧ 0xFE00 ≤ a.toNat ∧ a.toNat ≤ 0xFE9F) ∨
    (region a = .unmapped ∧ ((0xFEA0 ≤ a.toNat ∧ a.toNat ≤ 0xFEFF) ∨ a.toNat = 0xFF03 ∨
      (0xFF08 ≤ a.toNat ∧ a.toNat ≤ 0xFF0E))) ∨
    (region a = .joyp ∧ a.toNat = Config.joypAddr.toNat) ∨ (region a = .serial ∧ 0xFF01 ≤ a.toNat ∧ a.toNat ≤ 0xFF02) ∨
    (region a = .timer ∧ 0xFF04 ≤ a.toNat ∧ a.toNat ≤ 0xFF07) ∨ (region a = .ifReg ∧ a.toNat = Config.ifAddr.toNat) ∨
    (region a = .sound ∧ 0xFF10 ≤ a.toNat ∧ a.toNat ≤ 0xFF3F) ∨
    (region a = .lcdreg ∧ ((0xFF40 ≤ a.toNat ∧ a.toNat ≤ 0xFF43) ∨ a.toNat = 0xFF45 ∨
      (0xFF47 ≤ a.toNat ∧ a.toNat ≤ 0xFF4B))) ∨
    (region a = .ly ∧ a.toNat = Config.lyAddr.toNat) ∨ (region a = .dma ∧ a.toNat = Config.dmaReg.toNat) ∨
    (region a = .cgb ∧ 0xFF4C ≤ a.toNat ∧ a.toNat ≤ 0xFF7F) ∨ (region a = .hram ∧ 0xFF80 ≤ a.toNat ∧ a.toNat ≤ 0xFFFE) ∨
    (region a = .ie ∧ a.toNat = Config.ieAddr.toNat) := by
  have h := addr_toNat_lt a
  have hrow : ∃ r ∈ regionTable, r.first.toNat ≤ a.toNat ∧ a.toNat ≤ r.last.toNat := by
    simp only [regionTable, List.cons_append, List.nil_append, List.mem_cons, exists_eq_or_imp, Config.joypAddr,
      Config.ifAddr, Config.lyAddr, Config.dmaReg, Config.ieAddr, BitVec.reduceToNat, List.not_mem_nil, false_and,
      exists_false]
    omega
  obtain ⟨r, hr, h1, h2⟩ := hrow
  have he := region_of_row r hr h1 h2
  simp only [regionTable, List.cons_append, List.nil_append, List.mem_cons, List.not_mem_nil, or_false] at hr
  rcases hr with rfl | rfl | rfl | rfl | rfl | rfl | rfl | rfl | rfl | rfl | rfl | rfl | rfl | rfl | rfl | rfl | rfl |
      rfl | rfl | rfl | rfl | rfl <;>
    simp only [he, reduceCtorEq, false_and, true_and, false_or, or_false, Config.joypAddr, Config.ifAddr,
      Config.lyAddr, Config.dmaReg, Config.ieAddr, BitVec.reduceToNat] at h1 h2 ⊢ <;> omega

/-- An OAM address has an index inside the array (R47). -/
theorem oamIndex_lt_of_region {a : Addr} (h : region a = .oam) : oamIndex a < Config.oamSize := by
  have hc := region_cases a
  rw [h] at hc
  simp only [reduceCtorEq, false_and, true_and, false_or, or_false] at hc
  rw [oamIndex_eq]
  simp only [Config.oamSize]
  omega

/-- The bus routes only recognised addresses to the register file (43_video_model.md R125). -/
theorem videoRegAt_of_region {a : Addr} (h : region a = .lcdreg ∨ region a = .ly) : (videoRegAt a).isSome := by
  have hc := region_cases a
  have hr : (0xFF40 ≤ a.toNat ∧ a.toNat ≤ 0xFF45) ∨ (0xFF47 ≤ a.toNat ∧ a.toNat ≤ 0xFF4B) := by
    rcases h with h | h <;> rw [h] at hc <;>
      simp only [reduceCtorEq, false_and, true_and, false_or, or_false, Config.lyAddr, BitVec.reduceToNat] at hc <;>
      omega
  have ha : a = BitVec.ofNat Config.addrW a.toNat := by simp
  generalize a.toNat = n at hr ha
  subst ha
  rcases hr with ⟨h1, h2⟩ | ⟨h1, h2⟩ <;> interval_cases n <;> rfl

/-- The one address of each video register (10_state.md R12, R13). -/
def videoRegAddr : VideoReg → Addr
  | .lcdc => 0xFF40 | .stat => 0xFF41 | .scy => 0xFF42 | .scx => 0xFF43 | .ly => Config.lyAddr | .lyc => 0xFF45
  | .bgp => 0xFF47 | .obp0 => 0xFF48 | .obp1 => 0xFF49 | .wy => 0xFF4A | .wx => 0xFF4B

theorem findVideoReg_mem {a : Addr} {n : VideoReg} {t : List (Addr × VideoReg)} (h : findVideoReg a t = some n) :
    (a, n) ∈ t := by
  induction t with
  | nil => simp [findVideoReg] at h
  | cons p rest ih =>
    unfold findVideoReg at h
    split at h
    · rename_i e
      rw [← e, ← Option.some.inj h]
      exact List.mem_cons_self
    · exact List.mem_cons_of_mem _ (ih h)

theorem findVideoReg_none {a : Addr} {t : List (Addr × VideoReg)} (h : a ∉ t.map Prod.fst) : findVideoReg a t = none := by
  induction t with
  | nil => rfl
  | cons p rest ih =>
    simp only [List.map_cons, List.mem_cons, not_or] at h
    unfold findVideoReg
    rw [if_neg (fun e => h.1 e.symm), ih h.2]

theorem videoRegAt_eq_some {a : Addr} {n : VideoReg} (h : videoRegAt a = some n) : a = videoRegAddr n := by
  have hm := findVideoReg_mem h
  have hall : ∀ p ∈ videoRegTable.toList, p.1 = videoRegAddr p.2 := by decide
  exact hall (a, n) hm

/-- No register has an alias address (10_state.md R12). -/
theorem videoRegAt_inj {a x : Addr} {n : VideoReg} (h : videoRegAt a = some n) (h' : videoRegAt x = some n) : x = a :=
  (videoRegAt_eq_some h').trans (videoRegAt_eq_some h).symm

/-- The DMA source address never wraps (44_dma.md R141). -/
theorem dmaSource_toNat (page : Byte) {i : Nat} (hi : i < Config.dmaLen) : (dmaSource page i).toNat = page.toNat * 256 + i := by
  have hp := byte_toNat_lt page
  simp only [dmaSource, BitVec.toNat_add, BitVec.toNat_shiftLeft, BitVec.toNat_setWidth, BitVec.toNat_ofNat,
    Nat.shiftLeft_eq, Config.addrW, Config.dataW, Config.dmaLen] at hi ⊢
  omega

theorem timerTicks_toNat (c : Cycles) : (timerTicks c).toNat = 4 * c.toNat := by
  have hc := cycles_toNat_lt c
  simp only [timerTicks, BitVec.toNat_ofNat, Config.timerCycleScale, Config.timerArgW]
  omega

theorem lowByte_toNat (w : Word) : (lowByte w).toNat = w.toNat % 256 := by
  simp only [lowByte, BitVec.extractLsb'_toNat, Nat.shiftRight_zero, Config.dataW, Nat.reducePow]

theorem highByte_toNat (w : Word) : (highByte w).toNat = w.toNat / 256 := by
  have hw := w.isLt
  simp only [highByte, BitVec.extractLsb'_toNat, Nat.shiftRight_eq_div_pow, Config.dataW]
  omega

/-- The high byte of a joined word counts 256 times (42_word_access.md R120). -/
theorem joinBytes_toNat (hi lo : Byte) : (joinBytes hi lo).toNat = 256 * hi.toNat + lo.toNat := by
  have hl := lo.isLt
  change (BitVec.append hi lo).toNat = _
  have h := BitVec.toNat_append hi lo
  rw [← Nat.shiftLeft_add_eq_or_of_lt hl, Nat.shiftLeft_eq] at h
  simp only [Config.dataW] at h
  exact h.trans (by omega)

/-- Splitting a word and joining its halves gives it back (R120, R121). -/
theorem joinBytes_halves (w : Word) : joinBytes (highByte w) (lowByte w) = w := by
  apply BitVec.eq_of_toNat_eq
  rw [joinBytes_toNat, highByte_toNat, lowByte_toNat]
  omega

end Sys2Proof
end

