-- ==== Sys2Proof/Laws/Memory.lean ====
section
/-! SUPPORT. The laws of a storage array: a read after a write, and the canonical form. -/
namespace Sys2Proof

@[simp] theorem Memory.readByte_nil (i : Nat) : Memory.readByte [] i = Config.unlistedByte := rfl

theorem Memory.readByte_cons (c : Host.Cell) (m : Memory) (i : Nat) :
    Memory.readByte (c :: m) i = if c.1 = i then c.2 else Memory.readByte m i := rfl

theorem Memory.readByte_without (m : Memory) (i j : Nat) :
    Memory.readByte (Memory.without m i) j = if j = i then Config.unlistedByte else Memory.readByte m j := by
  induction m with
  | nil => simp [Memory.without]
  | cons c rest ih =>
    unfold Memory.without
    by_cases hc : c.1 = i
    · rw [if_pos hc, ih, Memory.readByte_cons]
      by_cases hj : j = i
      · simp [hj]
      · rw [if_neg hj, if_neg hj, if_neg (by omega)]
    · rw [if_neg hc, Memory.readByte_cons, Memory.readByte_cons, ih]
      by_cases hj : c.1 = j
      · rw [if_pos hj, if_pos hj, if_neg (by omega)]
      · rw [if_neg hj, if_neg hj]

theorem Memory.readByte_insertCell (m : Memory) (i j : Nat) (v : Byte) (h : ∀ c ∈ m, c.1 ≠ i) :
    Memory.readByte (Memory.insertCell m i v) j = if j = i then v else Memory.readByte m j := by
  induction m with
  | nil =>
    simp only [Memory.insertCell, Memory.readByte_cons, Memory.readByte_nil]
    by_cases hj : j = i
    · simp [hj]
    · rw [if_neg hj, if_neg (fun e => hj e.symm)]
  | cons c rest ih =>
    have hc : c.1 ≠ i := h c (by simp)
    have hr := ih fun d hd => h d (by simp [hd])
    unfold Memory.insertCell
    by_cases hlt : i < c.1
    · rw [if_pos hlt, Memory.readByte_cons]
      by_cases hj : j = i
      · simp [hj]
      · rw [if_neg hj, if_neg (fun e => hj e.symm)]
    · rw [if_neg hlt, Memory.readByte_cons, Memory.readByte_cons, hr]
      by_cases hj : c.1 = j
      · rw [if_pos hj, if_pos hj, if_neg (by omega)]
      · rw [if_neg hj, if_neg hj]

theorem Memory.mem_without {m : Memory} {i : Nat} {c : Host.Cell} (h : c ∈ Memory.without m i) :
    c ∈ m ∧ c.1 ≠ i := by
  induction m with
  | nil => simp [Memory.without] at h
  | cons d rest ih =>
    unfold Memory.without at h
    by_cases hd : d.1 = i
    · rw [if_pos hd] at h
      exact ⟨by simp [(ih h).1], (ih h).2⟩
    · rw [if_neg hd] at h
      rcases List.mem_cons.1 h with rfl | h
      · exact ⟨by simp, hd⟩
      · exact ⟨by simp [(ih h).1], (ih h).2⟩

/-- A read after a write: the written index reads the value, every other index as before. No canonical form is needed. -/
theorem Memory.readByte_writeByte (m : Memory) (i j : Nat) (v : Byte) :
    Memory.readByte (Memory.writeByte m i v) j = if j = i then v else Memory.readByte m j := by
  unfold Memory.writeByte
  by_cases hv : v = Config.unlistedByte
  · rw [if_pos hv, Memory.readByte_without, hv]
  · rw [if_neg hv, Memory.readByte_insertCell _ _ _ _ fun c hc => (Memory.mem_without hc).2, Memory.readByte_without]
    by_cases hj : j = i <;> simp [hj]

@[simp] theorem Memory.readByte_writeByte_same (m : Memory) (i : Nat) (v : Byte) :
    Memory.readByte (Memory.writeByte m i v) i = v := by simp [Memory.readByte_writeByte]

theorem Memory.readByte_writeByte_of_ne (m : Memory) {i j : Nat} (v : Byte) (h : j ≠ i) :
    Memory.readByte (Memory.writeByte m i v) j = Memory.readByte m j := by
  rw [Memory.readByte_writeByte, if_neg h]

theorem Memory.wf_nil (size : Nat) : Memory.wf size [] := by simp [Memory.wf]

theorem Memory.wf_without {size : Nat} {m : Memory} (h : Memory.wf size m) (i : Nat) :
    Memory.wf size (Memory.without m i) := by
  refine ⟨?_, fun c hc => h.2 c (Memory.mem_without hc).1⟩
  have hs : (Memory.without m i).Sublist m := by
    clear h
    induction m with
    | nil => simp [Memory.without]
    | cons d rest ih =>
      unfold Memory.without
      split
      · exact ih.trans (List.sublist_cons_self d rest)
      · exact ih.cons_cons d
  exact h.1.sublist hs

theorem Memory.mem_insertCell {m : Memory} {i : Nat} {v : Byte} {c : Host.Cell}
    (h : c ∈ Memory.insertCell m i v) : c = (i, v) ∨ c ∈ m := by
  induction m with
  | nil => simpa [Memory.insertCell] using h
  | cons d rest ih =>
    unfold Memory.insertCell at h
    split at h
    · simpa using h
    · rcases List.mem_cons.1 h with rfl | h
      · simp
      · rcases ih h with e | e
        · exact Or.inl e
        · simp [e]

theorem Memory.pairwise_insertCell {m : Memory} {i : Nat} (v : Byte)
    (h : m.Pairwise (fun c d => c.1 < d.1)) (hn : ∀ c ∈ m, c.1 ≠ i) :
    (Memory.insertCell m i v).Pairwise (fun c d => c.1 < d.1) := by
  induction m with
  | nil => simp [Memory.insertCell]
  | cons d rest ih =>
    have hd := List.pairwise_cons.1 h
    unfold Memory.insertCell
    split
    · rename_i hlt
      refine List.pairwise_cons.2 ⟨fun c hc => ?_, h⟩
      rcases List.mem_cons.1 hc with rfl | hc
      · exact hlt
      · exact Nat.lt_trans hlt (hd.1 c hc)
    · rename_i hge
      refine List.pairwise_cons.2 ⟨fun c hc => ?_, ih hd.2 fun c hc => hn c (by simp [hc])⟩
      rcases Memory.mem_insertCell hc with rfl | hc
      · have := hn d (by simp)
        simp only
        omega
      · exact hd.1 c hc

/-- A write inside the array keeps the canonical form. -/
theorem Memory.wf_writeByte {size : Nat} {m : Memory} (h : Memory.wf size m) {i : Nat} (hi : i < size) (v : Byte) :
    Memory.wf size (Memory.writeByte m i v) := by
  unfold Memory.writeByte
  by_cases hv : v = Config.unlistedByte
  · rw [if_pos hv]
    exact Memory.wf_without h i
  · rw [if_neg hv]
    have hw := Memory.wf_without h i
    refine ⟨Memory.pairwise_insertCell v hw.1 fun c hc => (Memory.mem_without hc).2, fun c hc => ?_⟩
    rcases Memory.mem_insertCell hc with rfl | hc
    · exact ⟨hi, hv⟩
    · exact hw.2 c hc

/-- A list of writes keeps the canonical form, whatever the list: those outside the array are left out. -/
theorem Memory.wf_writeAll {size : Nat} (ws : List Host.Cell) {m : Memory} (h : Memory.wf size m) :
    Memory.wf size (Memory.writeAll size m ws) := by
  induction ws generalizing m with
  | nil => exact h
  | cons c rest ih =>
    unfold Memory.writeAll
    split
    · rename_i hi
      exact ih (Memory.wf_writeByte h hi c.2)
    · exact ih h

/-- Past the last entry's index, and wherever no entry stands, a read gives the unlisted byte. -/
theorem Memory.readByte_of_forall_ne {m : Memory} {i : Nat} (h : ∀ c ∈ m, c.1 ≠ i) :
    Memory.readByte m i = Config.unlistedByte := by
  induction m with
  | nil => rfl
  | cons c rest ih =>
    rw [Memory.readByte_cons, if_neg (h c (by simp)), ih fun d hd => h d (by simp [hd])]

/-- Two arrays in canonical form that read alike everywhere are equal data. -/
theorem Memory.ext_of_wf {size : Nat} {m m' : Memory} (h : Memory.wf size m) (h' : Memory.wf size m')
    (heq : ∀ i, Memory.readByte m i = Memory.readByte m' i) : m = m' := by
  induction m generalizing m' with
  | nil =>
    cases m' with
    | nil => rfl
    | cons c rest =>
      have := heq c.1
      simp only [Memory.readByte_nil, Memory.readByte_cons, if_true] at this
      exact absurd this.symm (h'.2 c (by simp)).2
  | cons c rest ih =>
    have hc := List.pairwise_cons.1 h.1
    have hcv := (h.2 c (by simp)).2
    cases m' with
    | nil =>
      have := heq c.1
      simp only [Memory.readByte_nil, Memory.readByte_cons, if_true] at this
      exact absurd this hcv
    | cons d rest' =>
      have hd := List.pairwise_cons.1 h'.1
      have hdv := (h'.2 d (by simp)).2
      have notin : ∀ {j : Nat} {l : Memory} {e : Host.Cell}, (∀ x ∈ l, e.1 < x.1) → j ≤ e.1 →
          Memory.readByte l j = Config.unlistedByte := by
        intro j l e hl hj
        exact Memory.readByte_of_forall_ne fun x hx => by have := hl x hx; omega
      have hk : c.1 = d.1 := by
        rcases Nat.lt_trichotomy c.1 d.1 with hlt | he | hgt
        · have := heq c.1
          rw [Memory.readByte_cons, if_pos rfl, Memory.readByte_cons, if_neg (by omega),
            notin hd.1 (Nat.le_of_lt hlt)] at this
          exact absurd this hcv
        · exact he
        · have := heq d.1
          rw [Memory.readByte_cons, if_neg (by omega), Memory.readByte_cons, if_pos rfl,
            notin hc.1 (Nat.le_of_lt hgt)] at this
          exact absurd this.symm hdv
      have hv : c.2 = d.2 := by
        have := heq c.1
        rwa [Memory.readByte_cons, if_pos rfl, Memory.readByte_cons, if_pos hk.symm] at this
      have hrest : rest = rest' := by
        refine ih ⟨hc.2, fun x hx => h.2 x (by simp [hx])⟩ ⟨hd.2, fun x hx => h'.2 x (by simp [hx])⟩ fun i => ?_
        by_cases hi : c.1 = i
        · rw [notin hc.1 (by omega), notin hd.1 (by omega)]
        · have := heq i
          rwa [Memory.readByte_cons, if_neg hi, Memory.readByte_cons, if_neg (by omega)] at this
      rw [show c = d from Prod.ext hk hv, hrest]

/-- Writing back what an index reads as changes nothing. -/
theorem Memory.writeByte_readByte {size : Nat} {m : Memory} (h : Memory.wf size m) {i : Nat} (hi : i < size) :
    Memory.writeByte m i (Memory.readByte m i) = m :=
  Memory.ext_of_wf (Memory.wf_writeByte h hi _) h fun j => by
    rw [Memory.readByte_writeByte]
    split
    · rename_i e
      rw [e]
    · rfl

end Sys2Proof
end

