-- ==== Sys2Proof/Laws/State.lean ====
section
/-! SUPPORT. One lemma per field per update of the state's records, each true by rfl. -/
namespace Sys2Proof

@[simp] theorem CartState.write_log (c : CartState) (a : Addr) (v : Byte) : (c.write a v).log = ⟨a, v⟩ :: c.log := rfl

@[simp] theorem InputState.write_log (d : InputState) (a : Addr) (v : Byte) : (d.write a v).log = .write a v :: d.log := rfl
@[simp] theorem InputState.write_latch (d : InputState) (a : Addr) (v : Byte) : (d.write a v).latch = d.latch ||| Config.inputWriteLatch d a v := rfl

@[simp] theorem InputState.advance_log (d : InputState) (c : Cycles) : (d.advance c).log = .advance c :: d.log := rfl
@[simp] theorem InputState.advance_latch (d : InputState) (c : Cycles) : (d.advance c).latch = d.latch ||| Config.inputAdvanceLatch d c := rfl

@[simp] theorem InputState.clearLatch_log (d : InputState) : (d.clearLatch).log = d.log := rfl
@[simp] theorem InputState.clearLatch_latch (d : InputState) : (d.clearLatch).latch = 0x00 := rfl

@[simp] theorem TimerState.write_log (d : TimerState) (a : Addr) (v : Byte) : (d.write a v).log = .write a v :: d.log := rfl
@[simp] theorem TimerState.write_latch (d : TimerState) (a : Addr) (v : Byte) : (d.write a v).latch = d.latch ||| Config.timerWriteLatch d a v := rfl

@[simp] theorem TimerState.advance_log (d : TimerState) (t : TimerArg) : (d.advance t).log = .advance t :: d.log := rfl
@[simp] theorem TimerState.advance_latch (d : TimerState) (t : TimerArg) : (d.advance t).latch = d.latch ||| Config.timerAdvanceLatch d t := rfl

@[simp] theorem TimerState.clearLatch_log (d : TimerState) : (d.clearLatch).log = d.log := rfl
@[simp] theorem TimerState.clearLatch_latch (d : TimerState) : (d.clearLatch).latch = 0x00 := rfl

@[simp] theorem VideoState.renderAdvance_regs (v : VideoState) (c : Cycles) : (v.renderAdvance c).regs = Config.renderRegs v c := rfl
@[simp] theorem VideoState.renderAdvance_vram (v : VideoState) (c : Cycles) : (v.renderAdvance c).vram = Memory.writeAll Config.vramSize v.vram (Config.renderVramWrites v c) := rfl
@[simp] theorem VideoState.renderAdvance_oam (v : VideoState) (c : Cycles) : (v.renderAdvance c).oam = Memory.writeAll Config.oamSize v.oam (Config.renderOamWrites v c) := rfl

@[simp] theorem VideoState.renderAdvance_log (v : VideoState) (c : Cycles) : (v.renderAdvance c).render.log = ⟨v.regs, v.vram, v.oam, c⟩ :: v.render.log := rfl
@[simp] theorem VideoState.renderAdvance_latch (v : VideoState) (c : Cycles) : (v.renderAdvance c).render.latch = Config.renderLatch v c := rfl

@[simp] theorem VideoState.clearLatch_regs (v : VideoState) : (v.clearLatch).regs = v.regs := rfl
@[simp] theorem VideoState.clearLatch_vram (v : VideoState) : (v.clearLatch).vram = v.vram := rfl
@[simp] theorem VideoState.clearLatch_oam (v : VideoState) : (v.clearLatch).oam = v.oam := rfl
@[simp] theorem VideoState.clearLatch_log (v : VideoState) : (v.clearLatch).render.log = v.render.log := rfl
@[simp] theorem VideoState.clearLatch_latch (v : VideoState) : (v.clearLatch).render.latch = 0x00 := rfl

namespace Machine

@[simp] theorem BusState.fault_wram (b : BusState) (k : FatalKind) (a : Addr) : (b.fault k a).wram = b.wram := rfl
@[simp] theorem BusState.fault_hram (b : BusState) (k : FatalKind) (a : Addr) : (b.fault k a).hram = b.hram := rfl
@[simp] theorem BusState.fault_ifReg (b : BusState) (k : FatalKind) (a : Addr) : (b.fault k a).ifReg = b.ifReg := rfl
@[simp] theorem BusState.fault_ieReg (b : BusState) (k : FatalKind) (a : Addr) : (b.fault k a).ieReg = b.ieReg := rfl
@[simp] theorem BusState.fault_video (b : BusState) (k : FatalKind) (a : Addr) : (b.fault k a).video = b.video := rfl
@[simp] theorem BusState.fault_cart (b : BusState) (k : FatalKind) (a : Addr) : (b.fault k a).cart = b.cart := rfl
@[simp] theorem BusState.fault_input (b : BusState) (k : FatalKind) (a : Addr) : (b.fault k a).input = b.input := rfl
@[simp] theorem BusState.fault_timer (b : BusState) (k : FatalKind) (a : Addr) : (b.fault k a).timer = b.timer := rfl
@[simp] theorem BusState.fault_status (b : BusState) (k : FatalKind) (a : Addr) : (b.fault k a).status = .faulted k a := rfl

@[simp] theorem State.respond_bus (s : State) (b : BusState) (r : Response) : (s.respond b r).bus = b := rfl
@[simp] theorem State.respond_pos (s : State) (b : BusState) (r : Response) : (s.respond b r).pos = s.pos + 1 := rfl
@[simp] theorem State.respond_pending (s : State) (b : BusState) (r : Response) : (s.respond b r).pending = s.pending := rfl
@[simp] theorem State.respond_response (s : State) (b : BusState) (r : Response) : (s.respond b r).response = r := rfl
@[simp] theorem State.respond_powerOnTable (s : State) (b : BusState) (r : Response) : (s.respond b r).powerOnTable = s.powerOnTable := rfl

@[simp] theorem clearLatches_wram (b : BusState) : (clearLatches b).wram = b.wram := rfl
@[simp] theorem clearLatches_hram (b : BusState) : (clearLatches b).hram = b.hram := rfl
@[simp] theorem clearLatches_ifReg (b : BusState) : (clearLatches b).ifReg = b.ifReg := rfl
@[simp] theorem clearLatches_ieReg (b : BusState) : (clearLatches b).ieReg = b.ieReg := rfl
@[simp] theorem clearLatches_cart (b : BusState) : (clearLatches b).cart = b.cart := rfl
@[simp] theorem clearLatches_status (b : BusState) : (clearLatches b).status = b.status := rfl
@[simp] theorem clearLatches_video (b : BusState) : (clearLatches b).video = b.video.clearLatch := rfl
@[simp] theorem clearLatches_input (b : BusState) : (clearLatches b).input = b.input.clearLatch := rfl
@[simp] theorem clearLatches_timer (b : BusState) : (clearLatches b).timer = b.timer.clearLatch := rfl

@[simp] theorem advanceBus_wram (b : BusState) (c : Cycles) : (advanceBus b c).wram = b.wram := rfl
@[simp] theorem advanceBus_hram (b : BusState) (c : Cycles) : (advanceBus b c).hram = b.hram := rfl
@[simp] theorem advanceBus_ieReg (b : BusState) (c : Cycles) : (advanceBus b c).ieReg = b.ieReg := rfl
@[simp] theorem advanceBus_cart (b : BusState) (c : Cycles) : (advanceBus b c).cart = b.cart := rfl
@[simp] theorem advanceBus_status (b : BusState) (c : Cycles) : (advanceBus b c).status = b.status := rfl
@[simp] theorem advanceBus_video (b : BusState) (c : Cycles) : (advanceBus b c).video = (b.video.renderAdvance c).clearLatch := rfl
@[simp] theorem advanceBus_input (b : BusState) (c : Cycles) : (advanceBus b c).input = (b.input.advance c).clearLatch := rfl
@[simp] theorem advanceBus_timer (b : BusState) (c : Cycles) : (advanceBus b c).timer = (b.timer.advance (timerTicks c)).clearLatch := rfl

@[simp] theorem advanceBus_ifReg (b : BusState) (c : Cycles) : (advanceBus b c).ifReg =
    ((b.ifReg ||| (b.video.renderAdvance c).render.latch) ||| (b.input.advance c).latch) |||
      (b.timer.advance (timerTicks c)).latch := rfl

@[simp] theorem State.withFetchWord_bus (s : State) (n w : Nat) : (s.withFetchWord n w).bus = s.bus := rfl
@[simp] theorem State.withFetchWord_pending (s : State) (n w : Nat) : (s.withFetchWord n w).pending = BitVec.ofNat 32 w :: s.pending := rfl
@[simp] theorem State.withFetchWord_response (s : State) (n w : Nat) : (s.withFetchWord n w).response = s.response := rfl
@[simp] theorem State.withFetchWord_powerOnTable (s : State) (n w : Nat) : (s.withFetchWord n w).powerOnTable = s.powerOnTable := rfl

end Machine

/-- A register reads back what was stored in it (10_state.md R15). -/
@[simp] theorem VideoRegs.get_set_same (r : VideoRegs) (n : VideoReg) (v : Byte) : (r.set n v).get n = v := by
  cases n <;> rfl

/-- A write to one register leaves every other one alone. -/
theorem VideoRegs.get_set_of_ne (r : VideoRegs) {n m : VideoReg} (v : Byte) (h : m ≠ n) :
    (r.set n v).get m = r.get m := by
  cases n <;> cases m <;> first | rfl | exact absurd rfl h

end Sys2Proof
end

