-- ==== Sys2Proof/Laws/Access.lean ====
section
/-! SUPPORT. What each bus access can do, said once: byte reads, sprite-memory and register writes, the DMA transfer,
byte writes, the power-on table, and which accesses keep the canonical form of the memories.
-/
namespace Sys2Proof.Machine

@[simp] theorem Access.andThen_done {α β : Type} (x : α) (k : α → Access β) : (Access.done x).andThen k = k x := rfl
@[simp] theorem Access.andThen_raised {α β : Type} (b : BusState) (k : α → Access β) :
    (Access.raised b : Access α).andThen k = .raised b := rfl
@[simp] theorem Access.andThen_refused {α β : Type} (r : Refusal) (k : α → Access β) :
    (Access.refused r : Access α).andThen k = .refused r := rfl

/-- What the bus is after an access that ends in one, whether it completed or raised. -/
def Access.leaves (P : BusState → Prop) : Access BusState → Prop
  | .done b => P b
  | .raised b => P b
  | .refused _ => True

theorem Access.leaves_andThen {P Q : BusState → Prop} {r : Access BusState} {k : BusState → Access BusState}
    (hr : r.leaves P) (hd : ∀ b, P b → (k b).leaves Q) (hf : ∀ b, P b → Q b) : (r.andThen k).leaves Q := by
  cases r with
  | done b => exact hd b hr
  | raised b => exact hf b hr
  | refused e => trivial

/-! ### Byte reads -/

/-- A read outside SERIAL and CGB gives a byte (20_memory.md R43). -/
theorem memRead_done (b : BusState) {a : Addr} (h : (region a).fatalOnRead = false) : ∃ v, memRead b a = .done v := by
  have hreg := @videoRegAt_of_region a
  have hoam := @oamIndex_lt_of_region a
  unfold memRead
  cases hr : region a <;> simp only [hr, Region.fatalOnRead, Bool.true_eq_false, reduceCtorEq] at h hreg hoam ⊢
  case oam => exact ⟨_, if_pos (hoam trivial)⟩
  case lcdreg =>
    obtain ⟨n, hn⟩ := Option.isSome_iff_exists.1 (hreg (Or.inl trivial))
    exact ⟨b.video.regs.get n, by simp only [readLcdreg, readRegister, hn]⟩
  all_goals exact ⟨_, rfl⟩

/-- A read of SERIAL or CGB raises, with its address (R43). -/
theorem memRead_raised (b : BusState) {a : Addr} (h : (region a).fatalOnRead = true) :
    memRead b a = .raised (b.fault .unsupportedFeatureAccess a) := by
  unfold memRead
  cases hr : region a <;> simp only [hr, Region.fatalOnRead, Bool.false_eq_true] at h ⊢ <;> rfl

theorem memRead_of_peek {b : BusState} {a : Addr} {v : Byte} (h : peek b a = some v) : memRead b a = .done v := by
  unfold peek at h
  cases hm : memRead b a <;> simp_all

theorem peek_of_memRead {b : BusState} {a : Addr} {v : Byte} (h : memRead b a = .done v) : peek b a = some v := by
  simp only [peek, h]

theorem peek_eq_none_iff (b : BusState) (a : Addr) : peek b a = none ↔ (region a).fatalOnRead = true := by
  cases h : (region a).fatalOnRead
  · obtain ⟨v, hv⟩ := memRead_done b h
    simp [peek_of_memRead hv]
  · simp [peek, memRead_raised b h]

/-- What a bus read of an address returns, by its region: the whole of 40_byte_read.md in one line each. -/
theorem peek_by_region (b : BusState) (x : Addr) : peek b x =
    match region x with
    | .cartRom | .cartRam => some (Config.cartRead b.cart x)
    | .vram => some (Memory.readByte b.video.vram (vramIndex x))
    | .wram | .echo => some (Memory.readByte b.wram (wramIndex x))
    | .oam => some (Memory.readByte b.video.oam (oamIndex x))
    | .unmapped | .sound | .dma => some Config.neutralByte
    | .joyp => some (Config.inputRead b.input Config.joypAddr)
    | .serial | .cgb => none
    | .timer => some (Config.timerRead b.timer x)
    | .ifReg => some b.ifReg
    | .lcdreg => (videoRegAt x).map b.video.regs.get
    | .ly => some Config.lyReadSentinel
    | .hram => some (Memory.readByte b.hram (hramIndex x))
    | .ie => some b.ieReg := by
  have hreg := @videoRegAt_of_region x
  have hoam := @oamIndex_lt_of_region x
  unfold peek memRead
  cases hr : region x <;> simp only [hr, reduceCtorEq] at hreg hoam ⊢ <;> try rfl
  case oam => simp only [readOam, readSpriteMemory, hoam trivial, if_true]
  case lcdreg =>
    obtain ⟨n, hn⟩ := Option.isSome_iff_exists.1 (hreg (Or.inl trivial))
    simp only [readLcdreg, readRegister, hn, Option.map_some]

/-- A read outside OAM does not see the sprite memory. -/
theorem peek_of_oam (b : BusState) (m : Memory) {a : Addr} (h : region a ≠ .oam) :
    peek { b with video := { b.video with oam := m } } a = peek b a := by
  rw [peek_by_region, peek_by_region]
  cases hr : region a <;> first | rfl | exact absurd hr h

/-! ### Sprite memory and the DMA transfer -/

/-- The DMA engine's destination index is always inside the array (44_dma.md R144). -/
theorem writeSpriteMemory_dma (b : BusState) {i : Nat} (hi : i < Config.dmaLen) (v : Byte) :
    writeSpriteMemory b (BitVec.ofNat Config.addrW i) v =
      .done { b with video := { b.video with oam := Memory.writeByte b.video.oam i v } } := by
  have e : oamIndex (BitVec.ofNat Config.addrW i) = i := by
    rw [oamIndex_eq, BitVec.toNat_ofNat]
    simp only [Config.addrW, Config.dmaLen] at hi ⊢
    omega
  simp only [writeSpriteMemory, e, show i < Config.oamSize from hi, if_true]

/-- The transfer writes only sprite memory, and status on a raise (44_dma.md R148). -/
theorem dmaBytes_leaves (page : Byte) (n i : Nat) (b : BusState) :
    (dmaBytes page n i b).leaves fun b' =>
      ∃ m st, b' = { b with video := { b.video with oam := m }, status := st } := by
  induction n generalizing i b with
  | zero => exact ⟨b.video.oam, b.status, rfl⟩
  | succ n ih =>
    unfold dmaBytes
    cases hf : (region (dmaSource page i)).fatalOnRead
    · obtain ⟨v, hv⟩ := memRead_done b hf
      rw [hv, Access.andThen_done]
      by_cases hs : oamIndex (BitVec.ofNat Config.addrW i) < Config.oamSize
      · simp only [writeSpriteMemory, hs, if_true, Access.andThen_done]
        have := ih (i + 1) { b with video := { b.video with
          oam := Memory.writeByte b.video.oam (oamIndex (BitVec.ofNat Config.addrW i)) v } }
        cases hd : dmaBytes page n (i + 1) { b with video := { b.video with
          oam := Memory.writeByte b.video.oam (oamIndex (BitVec.ofNat Config.addrW i)) v } } <;>
          simp only [hd, Access.leaves] at this ⊢ <;> exact this
      · simp only [writeSpriteMemory, hs, if_false, Access.andThen_refused, Access.leaves]
    · rw [memRead_raised b hf]
      exact ⟨b.video.oam, _, rfl⟩

/-- What n bytes of a transfer from a page other than 0xFF leave: each destination byte is the source byte as it read
before the transfer (44_dma.md R142, R148). -/
theorem dmaBytes_done (page : Byte) (hp : page ≠ 0xFF#8) (n i : Nat) (hi : i + n ≤ Config.dmaLen) (b : BusState) :
    ∃ m, dmaBytes page n i b = .done { b with video := { b.video with oam := m } } ∧
      (∀ j, i ≤ j → j < i + n → some (Memory.readByte m j) = peek b (dmaSource page j)) ∧
      (∀ j, j < i ∨ i + n ≤ j → Memory.readByte m j = Memory.readByte b.video.oam j) := by
  have hlen : Config.dmaLen = 160 := rfl
  induction n generalizing i b with
  | zero => exact ⟨b.video.oam, rfl, by omega, fun _ _ => rfl⟩
  | succ n ih =>
    have hpn : page.toNat < 0xFF := by
      have h1 := byte_toNat_lt page
      have h2 : page.toNat ≠ 0xFF := fun e => hp (by simpa [← BitVec.toNat_inj] using e)
      omega
    have src : ∀ j, j < Config.dmaLen → (region (dmaSource page j)).fatalOnRead = false ∧
        (region (dmaSource page j) = .oam → page.toNat = 0xFE) := by
      intro j hj
      have ht := dmaSource_toNat page hj
      have hc := region_cases (dmaSource page j)
      generalize region (dmaSource page j) = r at hc ⊢
      cases r <;> simp only [reduceCtorEq, false_and, true_and, false_or, or_false] at hc <;>
        simp only [Region.fatalOnRead, reduceCtorEq, false_implies, and_true, true_and, true_implies] <;> omega
    obtain ⟨v, hv⟩ := memRead_done b (src i (by omega)).1
    obtain ⟨m, h1, h2, h3⟩ := ih (i + 1) (by omega)
      { b with video := { b.video with oam := Memory.writeByte b.video.oam i v } }
    refine ⟨m, ?_, ?_, ?_⟩
    · unfold dmaBytes
      rw [hv, Access.andThen_done, writeSpriteMemory_dma b (by omega), Access.andThen_done, h1]
    · intro j hj1 hj2
      by_cases hj : j = i
      · subst hj
        rw [h3 j (by omega), Memory.readByte_writeByte_same, peek_of_memRead hv]
      · rw [h2 j (by omega) (by omega)]
        by_cases ho : region (dmaSource page j) = .oam
        · have hfe := (src j (by omega)).2 ho
          have hix : oamIndex (dmaSource page j) = j := by
            rw [oamIndex_eq, dmaSource_toNat page (by omega)]
            omega
          simp only [peek, memRead, ho, readOam, readSpriteMemory, hix, Config.oamSize, show j < 160 by omega, if_true]
          rw [Memory.readByte_writeByte_of_ne _ _ hj]
        · rw [peek_of_oam b _ ho]
    · intro j hj
      rw [h3 j (by omega), Memory.readByte_writeByte_of_ne _ _ (by omega)]

theorem dmaTransfer_leaves (b : BusState) (page : Byte) :
    (dmaTransfer b page).leaves fun b' =>
      ∃ m st, b' = { b with video := { b.video with oam := m }, status := st } :=
  dmaBytes_leaves page _ 0 b

/-! ### The canonical form -/

theorem dmaBytes_keeps_oam_wf (page : Byte) (n i : Nat) (b : BusState) (h : Memory.wf Config.oamSize b.video.oam) :
    (dmaBytes page n i b).leaves fun b' => Memory.wf Config.oamSize b'.video.oam := by
  induction n generalizing i b with
  | zero => exact h
  | succ n ih =>
    unfold dmaBytes
    cases hf : (region (dmaSource page i)).fatalOnRead
    · obtain ⟨v, hv⟩ := memRead_done b hf
      rw [hv, Access.andThen_done]
      by_cases hs : oamIndex (BitVec.ofNat Config.addrW i) < Config.oamSize
      · simp only [writeSpriteMemory, hs, if_true, Access.andThen_done]
        exact ih _ _ (Memory.wf_writeByte h hs v)
      · simp only [writeSpriteMemory, hs, if_false, Access.andThen_refused, Access.leaves]
    · rw [memRead_raised b hf]
      exact h

/-- The whole of a transfer from a page other than 0xFF (44_dma.md R142, R148). -/
theorem dmaTransfer_copies (b : BusState) {page : Byte} (hp : page ≠ 0xFF#8) :
    ∃ m, dmaTransfer b page = .done { b with video := { b.video with oam := m } } ∧
      (∀ j, j < Config.dmaLen → some (Memory.readByte m j) = peek b (dmaSource page j)) ∧
      (∀ j, Config.dmaLen ≤ j → Memory.readByte m j = Memory.readByte b.video.oam j) := by
  obtain ⟨m, h1, h2, h3⟩ := dmaBytes_done page hp Config.dmaLen 0 (by omega) b
  exact ⟨m, h1, fun j hj => h2 j (by omega) (by omega), fun j hj => h3 j (by omega)⟩

/-- A transfer keeps the canonical form of sprite memory, whether it completes or raises. -/
theorem dmaTransfer_oam_wf {b b' : BusState} {page : Byte} (h : Memory.wf Config.oamSize b.video.oam)
    (hd : dmaTransfer b page = .done b' ∨ dmaTransfer b page = .raised b') :
    Memory.wf Config.oamSize b'.video.oam := by
  have h2 := dmaBytes_keeps_oam_wf page Config.dmaLen 0 b h
  change (dmaTransfer b page).leaves _ at h2
  rcases hd with hd | hd <;> (rw [hd] at h2; exact h2)

/-- Every byte write keeps the canonical form of the four arrays, whether it completes or raises. -/
theorem memWrite_keeps_memoriesWf (b : BusState) (a : Addr) (v : Byte) (h : b.memoriesWf) :
    (memWrite b a v).leaves BusState.memoriesWf := by
  obtain ⟨hw, hh, hv, ho⟩ := h
  unfold memWrite
  cases region a
  case vram => exact ⟨hw, hh, Memory.wf_writeByte hv (vramIndex_lt a) v, ho⟩
  case wram => exact ⟨Memory.wf_writeByte hw (wramIndex_lt a) v, hh, hv, ho⟩
  case echo => exact ⟨Memory.wf_writeByte hw (wramIndex_lt a) v, hh, hv, ho⟩
  case hram => exact ⟨hw, Memory.wf_writeByte hh (hramIndex_lt a) v, hv, ho⟩
  case oam =>
    simp only [writeOam, writeSpriteMemory]
    split
    · rename_i hs
      exact ⟨hw, hh, hv, Memory.wf_writeByte ho hs v⟩
    · trivial
  case dma =>
    simp only [writeDma]
    have h1 := dmaTransfer_leaves b v
    have h2 := dmaBytes_keeps_oam_wf v Config.dmaLen 0 b ho
    change (dmaTransfer b v).leaves _ at h2
    cases hd : dmaTransfer b v <;> simp only [hd, Access.leaves] at h1 h2 ⊢
    all_goals
      obtain ⟨m, st, rfl⟩ := h1
      exact ⟨hw, hh, hv, h2⟩
  case lcdreg =>
    simp only [writeLcdreg, writeRegister]
    cases videoRegAt a <;> exact ⟨hw, hh, hv, ho⟩
  all_goals exact ⟨hw, hh, hv, ho⟩

theorem applyTable_keeps_memoriesWf (table : List (Addr × Byte)) (b : BusState) (h : b.memoriesWf) :
    (applyTable table b).leaves BusState.memoriesWf := by
  induction table generalizing b with
  | nil => exact h
  | cons e rest ih =>
    exact Access.leaves_andThen (memWrite_keeps_memoriesWf b e.1 e.2 h) ih fun _ hb => hb

theorem zeroFilledBus_memoriesWf : zeroFilledBus.memoriesWf := by decide

theorem reset_memoriesWf : State.reset.bus.memoriesWf := by decide

theorem initBus_memoriesWf (table : List (Addr × Byte)) : (initBus table).leaves BusState.memoriesWf :=
  Access.leaves_andThen (applyTable_keeps_memoriesWf table _ zeroFilledBus_memoriesWf) (fun _ hb => hb) fun _ hb => hb

theorem advanceBus_keeps_memoriesWf (b : BusState) (c : Cycles) (h : b.memoriesWf) : (advanceBus b c).memoriesWf :=
  ⟨h.1, h.2.1, Memory.wf_writeAll _ h.2.2.1, Memory.wf_writeAll _ h.2.2.2⟩

/-! ### The status -/

/-- A bus write that raises is a DMA transfer from page 0xFF, stopped at 0xFF01 (44_dma.md R146). -/
theorem dmaTransfer_ff (b : BusState) :
    dmaTransfer b 0xFF#8 = .raised ({ b with video := { b.video with
      oam := Memory.writeByte b.video.oam 0 (Config.inputRead b.input Config.joypAddr) } }.fault
        .unsupportedFeatureAccess 0xFF01#16) := rfl

theorem dmaTransfer_done (b : BusState) {page : Byte} (hp : page ≠ 0xFF#8) :
    ∃ m, dmaTransfer b page = .done { b with video := { b.video with oam := m } } :=
  let ⟨m, h, _⟩ := dmaBytes_done page hp Config.dmaLen 0 (by omega) b
  ⟨m, h⟩

/-- Every byte write but a DMA from page 0xFF completes, and keeps the status (41_byte_write.md). -/
theorem memWrite_done (b : BusState) {a : Addr} {v : Byte} (h : a ≠ Config.dmaReg ∨ v ≠ 0xFF#8) :
    ∃ b', memWrite b a v = .done b' ∧ b'.status = b.status := by
  have hreg := @videoRegAt_of_region a
  have hoam := @oamIndex_lt_of_region a
  unfold memWrite
  cases hr : region a <;> simp only [hr, reduceCtorEq] at hreg hoam ⊢
  case oam => exact ⟨_, if_pos (hoam trivial), rfl⟩
  case lcdreg =>
    obtain ⟨n, hn⟩ := Option.isSome_iff_exists.1 (hreg (Or.inl trivial))
    exact ⟨{ b with video := { b.video with regs := b.video.regs.set n v } },
      by simp only [writeLcdreg, writeRegister, hn], rfl⟩
  case dma =>
    have ha : a = Config.dmaReg := by
      have hc := region_cases a
      simp only [hr, reduceCtorEq, false_and, true_and, false_or, or_false] at hc
      simpa [← BitVec.toNat_inj] using hc
    obtain ⟨m, hm⟩ := dmaTransfer_done b (h.resolve_left fun hn => hn ha)
    exact ⟨_, hm, rfl⟩
  all_goals exact ⟨_, rfl, rfl⟩

/-- A bus write of 0xFF to the DMA register, by any path, is that transfer and stops at 0xFF01. -/
theorem memWrite_dma_ff (b : BusState) : memWrite b Config.dmaReg 0xFF#8 = .raised ({ b with video := { b.video with
      oam := Memory.writeByte b.video.oam 0 (Config.inputRead b.input Config.joypAddr) } }.fault
        .unsupportedFeatureAccess 0xFF01#16) := by
  rw [← dmaTransfer_ff]
  simp only [memWrite, show region Config.dmaReg = .dma from by decide, writeDma]

/-- What a power-on table comes to (46_init.md R160): it completes and keeps the status, unless one of its entries hands
page 0xFF to the DMA register, and then it stops at 0xFF01 (44_dma.md R146). -/
theorem applyTable_cases (table : List (Addr × Byte)) (b : BusState) :
    ((Config.dmaReg, 0xFF#8) ∉ table ∧ ∃ b', applyTable table b = .done b' ∧ b'.status = b.status) ∨
    ((Config.dmaReg, 0xFF#8) ∈ table ∧ ∃ b', applyTable table b = .raised b' ∧
      b'.status = .faulted .unsupportedFeatureAccess 0xFF01#16) := by
  induction table generalizing b with
  | nil => exact Or.inl ⟨List.not_mem_nil, b, rfl, rfl⟩
  | cons e rest ih =>
    unfold applyTable
    by_cases he : e = (Config.dmaReg, 0xFF#8)
    · subst he
      rw [memWrite_dma_ff]
      exact Or.inr ⟨List.mem_cons_self, _, rfl, rfl⟩
    · have hne : e.1 ≠ Config.dmaReg ∨ e.2 ≠ 0xFF#8 := by
        by_contra hc
        simp only [not_or, not_not] at hc
        exact he (Prod.ext hc.1 hc.2)
      obtain ⟨b1, h1, hs⟩ := memWrite_done b hne
      rw [h1, Access.andThen_done]
      have hm : (Config.dmaReg, 0xFF#8) ∈ e :: rest ↔ (Config.dmaReg, 0xFF#8) ∈ rest := by
        rw [List.mem_cons]
        exact ⟨fun h => h.resolve_left fun q => he q.symm, Or.inr⟩
      rcases ih b1 with ⟨hn, b2, h2, h3⟩ | ⟨hn, b2, h2, h3⟩
      · exact Or.inl ⟨fun q => hn (hm.1 q), b2, h2, h3.trans hs⟩
      · exact Or.inr ⟨hm.2 hn, b2, h2, h3⟩

/-- The two ends of INIT with any table. -/
theorem initBus_cases (table : List (Addr × Byte)) :
    ((Config.dmaReg, 0xFF#8) ∉ table ∧ ∃ b, initBus table = .done b ∧ b.status = .running ∧ b.latchesClear) ∨
    ((Config.dmaReg, 0xFF#8) ∈ table ∧ ∃ b, initBus table = .raised b ∧
      b.status = .faulted .unsupportedFeatureAccess 0xFF01#16) := by
  unfold initBus
  rcases applyTable_cases table zeroFilledBus with ⟨hn, b, h, hs⟩ | ⟨hn, b, h, hs⟩ <;> rw [h]
  · exact Or.inl ⟨hn, clearLatches b, rfl, hs, rfl, rfl, rfl⟩
  · exact Or.inr ⟨hn, b, rfl, hs⟩

/-- No byte write reaches the renderer's private state (43_video_model.md R133). -/
theorem memWrite_keeps_render (b : BusState) (a : Addr) (v : Byte) :
    (memWrite b a v).leaves fun b' => b'.video.render = b.video.render := by
  unfold memWrite
  cases region a
  case oam =>
    simp only [writeOam, writeSpriteMemory]
    split <;> trivial
  case dma =>
    simp only [writeDma]
    have h := dmaTransfer_leaves b v
    cases hd : dmaTransfer b v <;> simp only [hd, Access.leaves] at h ⊢
    all_goals
      obtain ⟨m, st, rfl⟩ := h
      rfl
  case lcdreg =>
    simp only [writeLcdreg, writeRegister]
    cases videoRegAt a <;> rfl
  all_goals rfl

theorem applyTable_keeps_render (table : List (Addr × Byte)) (b : BusState) :
    (applyTable table b).leaves fun b' => b'.video.render = b.video.render := by
  induction table generalizing b with
  | nil => rfl
  | cons e rest ih =>
    refine Access.leaves_andThen (memWrite_keeps_render b e.1 e.2) (fun b1 h1 => ?_) fun _ h => h
    have h2 := ih b1
    rw [h1] at h2
    exact h2

/-- The video latch is 0x00 after INIT, whether it completes or raises. -/
theorem initBus_render_latch (table : List (Addr × Byte)) :
    (initBus table).leaves fun b => b.video.render.latch = 0x00 := by
  refine Access.leaves_andThen (applyTable_keeps_render table zeroFilledBus) (fun _ _ => rfl) fun b h => ?_
  rw [h]
  rfl

end Sys2Proof.Machine
end

