-- ==== Sys2Proof/Laws/Command.lean ====
section
/-! SUPPORT. What a command can do, said once: when it is accepted, what its next state is, which access each decoded
command makes, and what a step can come to.
-/
namespace Sys2Proof.Machine

theorem whenRunning_running {s : State} (h : s.bus.status = .running) (k : Host.Outcome State Fault Refusal) :
    whenRunning s k = k := by simp only [whenRunning, h]

theorem whenRunning_faulted {s : State} {kind : FatalKind} {a : Addr} (h : s.bus.status = .faulted kind a)
    (k : Host.Outcome State Fault Refusal) : whenRunning s k = .fault (.halted kind a) := by
  simp only [whenRunning, h]

/-- A machine past INIT and running runs the command's body (46_init.md R162, 60_exceptions.md R175). -/
theorem command_accepting {s : State} (h : s.accepting) (body : BusState → Access (BusState × Response)) :
    command s body = complete s (body s.bus) := by
  rw [command, whenRunning_running h.1, if_neg h.2]

theorem readCommand_done {s : State} (h : s.accepting) {rd : BusState → Access Byte} {v : Byte}
    (hr : rd s.bus = .done v) : readCommand s rd = .next (s.respond s.bus (.byte v)) := by
  rw [readCommand, command_accepting h, hr]
  rfl

theorem readCommand_raised {s : State} (h : s.accepting) {rd : BusState → Access Byte} {b : BusState}
    (hr : rd s.bus = .raised b) : readCommand s rd = .next (s.respond b .none) := by
  rw [readCommand, command_accepting h, hr]
  rfl

theorem writeCommand_done {s : State} (h : s.accepting) {wr : BusState → Access BusState} {b : BusState}
    (hr : wr s.bus = .done b) : writeCommand s wr = .next (s.respond b .none) := by
  rw [writeCommand, command_accepting h, hr]
  rfl

theorem writeCommand_raised {s : State} (h : s.accepting) {wr : BusState → Access BusState} {b : BusState}
    (hr : wr s.bus = .raised b) : writeCommand s wr = .next (s.respond b .none) := by
  rw [writeCommand, command_accepting h, hr]
  rfl

/-- A next state comes only from an accepting state (R162, R175), and is the body's bus with the position moved by one. -/
theorem command_next {s t : State} {body : BusState → Access (BusState × Response)} (h : command s body = .next t) :
    s.accepting ∧ ((∃ b r, body s.bus = .done (b, r) ∧ t = s.respond b r) ∨
      ∃ b, body s.bus = .raised b ∧ t = s.respond b .none) := by
  have ha : s.accepting := by
    unfold command whenRunning at h
    constructor
    · cases hs : s.bus.status <;> simp [hs] at h ⊢
    · intro hp
      cases hs : s.bus.status <;> simp [hs, hp] at h
  refine ⟨ha, ?_⟩
  rw [command_accepting ha] at h
  cases hb : body s.bus with
  | done x =>
    rw [hb] at h
    exact Or.inl ⟨x.1, x.2, rfl, (Host.Outcome.next.inj h).symm⟩
  | raised b =>
    rw [hb] at h
    exact Or.inr ⟨b, rfl, (Host.Outcome.next.inj h).symm⟩
  | refused e =>
    rw [hb] at h
    simp [complete] at h

/-- What a write command's next state can be. -/
theorem writeCommand_next {s t : State} {wr : BusState → Access BusState} (h : writeCommand s wr = .next t) :
    s.accepting ∧ ∃ b, (wr s.bus = .done b ∨ wr s.bus = .raised b) ∧ t = s.respond b .none := by
  obtain ⟨ha, h⟩ := command_next h
  refine ⟨ha, ?_⟩
  cases hb : wr s.bus <;> simp [hb] at h
  · exact ⟨_, Or.inl rfl, h⟩
  · exact ⟨_, Or.inr rfl, h⟩

/-- What a read command's next state can be (40_byte_read.md R98). -/
theorem readCommand_next {s t : State} {rd : BusState → Access Byte} (h : readCommand s rd = .next t) :
    s.accepting ∧ ((∃ v, rd s.bus = .done v ∧ t = s.respond s.bus (.byte v)) ∨
      ∃ b, rd s.bus = .raised b ∧ t = s.respond b .none) := by
  obtain ⟨ha, h⟩ := command_next h
  refine ⟨ha, ?_⟩
  cases hb : rd s.bus <;> simp [hb] at h
  · exact Or.inl ⟨_, rfl, h⟩
  · exact Or.inr ⟨_, rfl, h⟩

/-! ### The decoded commands -/

/-- The READ row of an address is one bus read of it (40_byte_read.md R80). -/
theorem exec_decodeRead (a : Addr) (s : State) : exec (decodeRead a) s = readCommand s fun b => memRead b a := by
  unfold decodeRead memRead
  cases region a <;> rfl

/-- The WRITE row of an address is one bus write to it (41_byte_write.md R100). -/
theorem exec_decodeWrite (a : Addr) (v : Byte) (s : State) :
    exec (decodeWrite a v) s = writeCommand s fun b => memWrite b a v := by
  unfold decodeWrite memWrite
  cases region a <;> rfl

/-- A decoded command is a READ, a WRITE, an ADVANCE or INIT, with its fields where 30_encoding.md R65 puts them. -/
theorem decode_cases {w : CmdWord} {i : Instr} (h : decode w = .ok i) :
    i = decodeRead (addrField w) ∨ i = decodeWrite (addrField w) (dataField w) ∨ i = .adv (dataField w) ∨
    i = .init := by
  unfold decode at h
  split_ifs at h <;> simp only [Except.ok.injEq] at h <;> simp [← h]

theorem decodeRead_ne_init (a : Addr) : decodeRead a ≠ .init := by
  unfold decodeRead
  cases region a <;> simp

theorem decodeWrite_ne_init (a : Addr) (v : Byte) : decodeWrite a v ≠ .init := by
  unfold decodeWrite
  cases region a <;> simp

/-- INIT with the default table leaves the reset bus (46_init.md R164, 10_state.md R35). -/
theorem initBus_default : initBus Config.defaultPowerOnTable = .done BusState.reset := rfl

/-- INIT with any power-on table gives a next state, faulted or not, in a running state at position 0 (R160, R162). -/
theorem execInit_first {s : State} (hr : s.bus.status = .running) (hp : s.pos = 0) :
    ∃ b, (initBus s.powerOnTable = .done b ∨ initBus s.powerOnTable = .raised b) ∧
      execInit s = .next (s.respond b .none) := by
  unfold execInit initCommand
  rw [whenRunning_running hr, if_pos hp]
  rcases initBus_cases s.powerOnTable with ⟨_, b, h, _⟩ | ⟨_, b, h, _⟩ <;> rw [h]
  · exact ⟨b, Or.inl rfl, rfl⟩
  · exact ⟨b, Or.inr rfl, rfl⟩

theorem execInit_next {s t : State} (h : execInit s = .next t) :
    s.bus.status = .running ∧ s.pos = 0 ∧
      ∃ b, (initBus s.powerOnTable = .done b ∨ initBus s.powerOnTable = .raised b) ∧ t = s.respond b .none := by
  have hr : s.bus.status = .running := by
    unfold execInit initCommand whenRunning at h
    cases hs : s.bus.status <;> simp [hs] at h ⊢
  have hp : s.pos = 0 := by
    unfold execInit initCommand at h
    rw [whenRunning_running hr] at h
    by_contra hn
    simp [if_neg hn] at h
  obtain ⟨b, hb, he⟩ := execInit_first hr hp
  rw [he] at h
  exact ⟨hr, hp, b, hb, (Host.Outcome.next.inj h).symm⟩

/-- What a step can come to: nothing issued, or one decoded command run on the stream's rest. -/
theorem step_next {s t : State} (h : step s = .next t) : s.bus.status = .running ∧
    ((s.pending = [] ∧ t = s) ∨
      ∃ w rest i, s.pending = w :: rest ∧ decode w = .ok i ∧ exec i { s with pending := rest } = .next t) := by
  unfold step fetchCommand at h
  cases hs : s.bus.status with
  | faulted kind a => simp [hs] at h
  | running =>
    refine ⟨rfl, ?_⟩
    cases hp : s.pending with
    | nil =>
      simp only [hs, hp] at h
      exact Or.inl ⟨rfl, (Host.Outcome.next.inj h).symm⟩
    | cons w rest =>
      cases hd : decode w with
      | error e => simp [hs, hp, hd] at h
      | ok i =>
        simp only [hs, hp, hd] at h
        exact Or.inr ⟨w, rest, i, rfl, hd, h⟩

/-- Every step's next bus, by the kind of command: the one case list the whole-machine rules are proved from. -/
theorem step_bus_cases {s t : State} (h : step s = .next t) : t = s ∨
    ∃ w rest, s.pending = w :: rest ∧ t.pending = rest ∧ t.pos = s.pos + 1 ∧
      t.powerOnTable = s.powerOnTable ∧
      ((decode w = .ok (decodeRead (addrField w)) ∧ (t.bus = s.bus ∨
          ((region (addrField w)).fatalOnRead = true ∧
            t.bus = s.bus.fault .unsupportedFeatureAccess (addrField w)))) ∨
       (decode w = .ok (decodeWrite (addrField w) (dataField w)) ∧
          (memWrite s.bus (addrField w) (dataField w) = .done t.bus ∨
           memWrite s.bus (addrField w) (dataField w) = .raised t.bus)) ∨
       (decode w = .ok (.adv (dataField w)) ∧ t.bus = advanceBus s.bus (dataField w)) ∨
       (decode w = .ok .init ∧
          (initBus s.powerOnTable = .done t.bus ∨ initBus s.powerOnTable = .raised t.bus))) := by
  obtain ⟨_, ⟨_, rfl⟩ | ⟨w, rest, i, hp, hd, he⟩⟩ := step_next h
  · exact Or.inl rfl
  refine Or.inr ⟨w, rest, hp, ?_⟩
  rcases decode_cases hd with rfl | rfl | rfl | rfl
  · rw [exec_decodeRead] at he
    obtain ⟨_, ⟨v, _, rfl⟩ | ⟨b, hb, rfl⟩⟩ := readCommand_next he
    · exact ⟨rfl, rfl, rfl, Or.inl ⟨hd, Or.inl rfl⟩⟩
    · refine ⟨rfl, rfl, rfl, Or.inl ⟨hd, Or.inr ?_⟩⟩
      cases hf : (region (addrField w)).fatalOnRead
      · obtain ⟨v, hv⟩ := memRead_done s.bus hf
        simp only [hv, reduceCtorEq] at hb
      · rw [memRead_raised _ hf] at hb
        exact ⟨rfl, (Access.raised.inj hb).symm⟩
  · rw [exec_decodeWrite] at he
    obtain ⟨_, b, hb, rfl⟩ := writeCommand_next he
    exact ⟨rfl, rfl, rfl, Or.inr (Or.inl ⟨hd, hb⟩)⟩
  · change command _ (fun b => Access.done (advanceBus b (dataField w), Response.none)) = _ at he
    obtain ⟨_, ⟨b, r, hb, rfl⟩ | ⟨b, hb, _⟩⟩ := command_next he
    · simp only [Access.done.injEq, Prod.mk.injEq] at hb
      exact ⟨rfl, rfl, rfl, Or.inr (Or.inr (Or.inl ⟨hd, hb.1.symm⟩))⟩
    · simp only [reduceCtorEq] at hb
  · obtain ⟨_, _, b, hb, rfl⟩ := execInit_next he
    exact ⟨rfl, rfl, rfl, Or.inr (Or.inr (Or.inr ⟨hd, hb⟩))⟩

/-- Under `CyclesSmall` the timer's argument is the same in 8 bits as in 16 (45_advance.md R153, D10). -/
theorem timerTicks_small {c : Cycles} (h : c.toNat ≤ 63) : (timerTicks c).toNat = (4 * c.toNat) % 256 := by
  rw [timerTicks_toNat]
  omega

/-- A run of k + 1 steps is its first step and a run of k, on any machine. -/
theorem core_run_succ (M : Host.Core) {s t : M.State} (h : M.step s = .next t) (k : Nat) :
    M.run (k + 1) s = M.run k t := by
  simp only [Host.Core.run, h]

/-- A run of k + 1 steps is its first step and a run of k. -/
theorem run_succ {s t : State} (h : step s = .next t) (k : Nat) :
    Sys2Proof.core.run (k + 1) s = Sys2Proof.core.run k t :=
  core_run_succ Sys2Proof.core h k

end Sys2Proof.Machine
end

