-- ==== Sys2Proof/Laws/PerInstr.lean ====
section
/-! SUPPORT. Facts about every instruction as syntax, one lemma per constructor. -/
namespace Sys2Proof.Laws

/-- The fields of a word that `commandWord` builds are the ones it was given (spec/30_encoding.md R65). -/
theorem fields_commandWord (op : BitVec 2) (a : Addr) (d : Byte) :
    opField (commandWord op a d) = op ∧ rsvField (commandWord op a d) = 0 ∧ addrField (commandWord op a d) = a ∧
    dataField (commandWord op a d) = d := by
  have ho := op.isLt
  have ha : a.toNat < 65536 := a.isLt
  have hd : d.toNat < 2 ^ 8 := d.isLt
  have hw : (commandWord op a d).toNat = op.toNat * 2 ^ 30 + a.toNat * 2 ^ 8 + d.toNat := by
    simp only [commandWord, BitVec.toNat_append, BitVec.toNat_ofNat, Nat.shiftLeft_eq, Config.addrW, Config.dataW]
    rw [← Nat.shiftLeft_eq a.toNat 8, ← Nat.shiftLeft_add_eq_or_of_lt hd, Nat.shiftLeft_eq]
    rw [show (0 % 2 ^ 6 * 2 ^ (16 + 8) ||| a.toNat * 2 ^ 8 + d.toNat) = a.toNat * 2 ^ 8 + d.toNat by simp]
    rw [← Nat.shiftLeft_eq op.toNat, ← Nat.shiftLeft_add_eq_or_of_lt (by omega), Nat.shiftLeft_eq]
    omega
  refine ⟨?_, ?_, ?_, ?_⟩ <;> apply BitVec.eq_of_toNat_eq <;>
    simp only [opField, rsvField, addrField, dataField, BitVec.extractLsb'_toNat, hw, Nat.shiftRight_eq_div_pow,
      Config.addrW, Config.dataW, BitVec.reduceToNat] <;> omega

namespace WordFields

/-- Every word of an instruction has RSV = 0 and the OP field of a READ, WRITE, ADVANCE or INIT as its row says
(30_encoding.md R65, R66, R71). -/
def Statement (i : Instr) : Prop :=
  ∀ w ∈ encode i, rsvField w = 0 ∧ opField w =
    match i with
    | .adv _ => opAdvance
    | .init => opInit
    | .rdCart _ | .rdVram _ | .rdWram _ | .rdEcho _ | .rdOam _ | .rdUnmapped _ | .rdJoyp | .rdSerial _ | .rdTimer _
    | .rdIf | .rdSound _ | .rdLcdreg _ | .rdLy | .rdDma | .rdCgb _ | .rdHram _ | .rdIe | .rdw _ => opRead
    | .wrCart _ _ | .wrVram _ _ | .wrWram _ _ | .wrEcho _ _ | .wrOam _ _ | .wrUnmapped _ _ | .wrJoyp _
    | .wrSerial _ _ | .wrTimer _ _ | .wrIf _ | .wrSound _ _ | .wrLcdreg _ _ | .wrLy _ | .wrDma _ | .wrCgb _ _
    | .wrHram _ _ | .wrIe _ | .wrw _ _ | .dma _ => opWrite

theorem of_commandWord {op : BitVec 2} {a : Addr} {d : Byte} {w : CmdWord} (h : w ∈ [commandWord op a d]) :
    rsvField w = 0 ∧ opField w = op := by
  rw [List.mem_singleton.1 h]
  exact ⟨(fields_commandWord op a d).2.1, (fields_commandWord op a d).1⟩

theorem of_two_commandWords {op : BitVec 2} {a a' : Addr} {d d' : Byte} {w : CmdWord}
    (h : w ∈ [commandWord op a d, commandWord op a' d']) : rsvField w = 0 ∧ opField w = op := by
  rcases List.mem_cons.1 h with rfl | h
  · exact of_commandWord (List.mem_singleton.2 rfl)
  · exact of_commandWord h

theorem rdCart (addr : Addr) : Statement (.rdCart addr) := fun _ h => of_commandWord h
theorem rdVram (addr : Addr) : Statement (.rdVram addr) := fun _ h => of_commandWord h
theorem rdWram (addr : Addr) : Statement (.rdWram addr) := fun _ h => of_commandWord h
theorem rdEcho (addr : Addr) : Statement (.rdEcho addr) := fun _ h => of_commandWord h
theorem rdOam (addr : Addr) : Statement (.rdOam addr) := fun _ h => of_commandWord h
theorem rdUnmapped (addr : Addr) : Statement (.rdUnmapped addr) := fun _ h => of_commandWord h
theorem rdJoyp : Statement .rdJoyp := fun _ h => of_commandWord h
theorem rdSerial (addr : Addr) : Statement (.rdSerial addr) := fun _ h => of_commandWord h
theorem rdTimer (addr : Addr) : Statement (.rdTimer addr) := fun _ h => of_commandWord h
theorem rdIf : Statement .rdIf := fun _ h => of_commandWord h
theorem rdSound (addr : Addr) : Statement (.rdSound addr) := fun _ h => of_commandWord h
theorem rdLcdreg (addr : Addr) : Statement (.rdLcdreg addr) := fun _ h => of_commandWord h
theorem rdLy : Statement .rdLy := fun _ h => of_commandWord h
theorem rdDma : Statement .rdDma := fun _ h => of_commandWord h
theorem rdCgb (addr : Addr) : Statement (.rdCgb addr) := fun _ h => of_commandWord h
theorem rdHram (addr : Addr) : Statement (.rdHram addr) := fun _ h => of_commandWord h
theorem rdIe : Statement .rdIe := fun _ h => of_commandWord h
theorem wrCart (addr : Addr) (value : Byte) : Statement (.wrCart addr value) := fun _ h => of_commandWord h
theorem wrVram (addr : Addr) (value : Byte) : Statement (.wrVram addr value) := fun _ h => of_commandWord h
theorem wrWram (addr : Addr) (value : Byte) : Statement (.wrWram addr value) := fun _ h => of_commandWord h
theorem wrEcho (addr : Addr) (value : Byte) : Statement (.wrEcho addr value) := fun _ h => of_commandWord h
theorem wrOam (addr : Addr) (value : Byte) : Statement (.wrOam addr value) := fun _ h => of_commandWord h
theorem wrUnmapped (addr : Addr) (value : Byte) : Statement (.wrUnmapped addr value) := fun _ h => of_commandWord h
theorem wrJoyp (value : Byte) : Statement (.wrJoyp value) := fun _ h => of_commandWord h
theorem wrSerial (addr : Addr) (value : Byte) : Statement (.wrSerial addr value) := fun _ h => of_commandWord h
theorem wrTimer (addr : Addr) (value : Byte) : Statement (.wrTimer addr value) := fun _ h => of_commandWord h
theorem wrIf (value : Byte) : Statement (.wrIf value) := fun _ h => of_commandWord h
theorem wrSound (addr : Addr) (value : Byte) : Statement (.wrSound addr value) := fun _ h => of_commandWord h
theorem wrLcdreg (addr : Addr) (value : Byte) : Statement (.wrLcdreg addr value) := fun _ h => of_commandWord h
theorem wrLy (value : Byte) : Statement (.wrLy value) := fun _ h => of_commandWord h
theorem wrDma (page : Byte) : Statement (.wrDma page) := fun _ h => of_commandWord h
theorem wrCgb (addr : Addr) (value : Byte) : Statement (.wrCgb addr value) := fun _ h => of_commandWord h
theorem wrHram (addr : Addr) (value : Byte) : Statement (.wrHram addr value) := fun _ h => of_commandWord h
theorem wrIe (value : Byte) : Statement (.wrIe value) := fun _ h => of_commandWord h
theorem adv (cycles : Cycles) : Statement (.adv cycles) := fun _ h => of_commandWord h
theorem init : Statement .init := fun _ h => of_commandWord h
theorem rdw (addr : Addr) : Statement (.rdw addr) := fun _ h => of_two_commandWords h
theorem wrw (addr : Addr) (word : Word) : Statement (.wrw addr word) := fun _ h => of_two_commandWords h
theorem dma (page : Byte) : Statement (.dma page) := fun _ h => of_commandWord h

end WordFields
end Sys2Proof.Laws
end

