-- ==== Sys2Proof/Tests/Slice0.lean ====
section
/-! SUPPORT. The model's own tests: ill-formed terms, words written out from spec/30_encoding.md R65, single steps whose
results are those of spec/95_test_vectors.md, and for every statement with hypotheses a state and operands that meet them.
-/
namespace Sys2Proof.Tests
open Sys2Proof Sys2Proof.Machine

/-! ### Helpers -/

/-- The step that runs one command word in a state. -/
def runWord (w : CmdWord) (s : State) : Host.Outcome State Fault Refusal := step { s with pending := [w] }

/-- The bus of a next state. -/
def busOf : Host.Outcome State Fault Refusal → Option BusState
  | .next t => some t.bus
  | .fault _ => none
  | .refused _ => none

/-- The response of a next state. -/
def responseOf : Host.Outcome State Fault Refusal → Option Response
  | .next t => some t.response
  | .fault _ => none
  | .refused _ => none

/-- The refusal of a step. -/
def refusalOf : Host.Outcome State Fault Refusal → Option Refusal
  | .next _ => none
  | .fault _ => none
  | .refused r => some r

/-- The fault of a step. -/
def faultOf : Host.Outcome State Fault Refusal → Option Fault
  | .next _ => none
  | .fault f => some f
  | .refused _ => none

/-- The reset state with one byte in each array, and IF and IE set. -/
def filled : State :=
  { State.reset with bus := { BusState.reset with
      wram := [(0x0123, 0x5A)], hram := [(0x7E, 0x42)], ifReg := 0xE1, ieReg := 0x1F
      video := { BusState.reset.video with
        vram := [(0x1FFF, 0x01)], oam := [(159, 0x08)], regs := { Config.resetVideoRegs with ly := 0x20, wx := 0x77 } } } }

/-- The reset state in the faulted status. -/
def faulted : State := { State.reset with bus := BusState.reset.fault .unsupportedFeatureAccess 0xFF02 }

/-- The reset state with one pending command word. -/
def loaded (w : CmdWord) : State := { State.reset with pending := [w] }

/-! ### Well-formedness: a term outside its row's addresses is refused (R70) -/

theorem test_wf_refuses_read_cart : (Instr.rdCart 0x8000).wf = false := by decide
theorem test_wf_refuses_read_vram : (Instr.rdVram 0xA000).wf = false := by decide
theorem test_wf_refuses_read_wram : (Instr.rdWram 0xE000).wf = false := by decide
theorem test_wf_refuses_read_echo : (Instr.rdEcho 0xFE00).wf = false := by decide
theorem test_wf_refuses_read_oam : (Instr.rdOam 0xFEA0).wf = false := by decide
theorem test_wf_refuses_read_unmapped : (Instr.rdUnmapped 0xFF04).wf = false := by decide
theorem test_wf_refuses_read_serial : (Instr.rdSerial 0xFF03).wf = false := by decide
theorem test_wf_refuses_read_timer : (Instr.rdTimer 0xFF08).wf = false := by decide
theorem test_wf_refuses_read_sound : (Instr.rdSound 0xFF0F).wf = false := by decide
theorem test_wf_refuses_read_lcdreg : (Instr.rdLcdreg 0xFF44).wf = false := by decide
theorem test_wf_refuses_read_cgb : (Instr.rdCgb 0xFF4B).wf = false := by decide
theorem test_wf_refuses_read_hram : (Instr.rdHram 0xFFFF).wf = false := by decide
theorem test_wf_refuses_write_cart : (Instr.wrCart 0xC000 1).wf = false := by decide
theorem test_wf_refuses_write_vram : (Instr.wrVram 0x7FFF 1).wf = false := by decide
theorem test_wf_refuses_write_wram : (Instr.wrWram 0xBFFF 1).wf = false := by decide
theorem test_wf_refuses_write_echo : (Instr.wrEcho 0xDFFF 1).wf = false := by decide
theorem test_wf_refuses_write_oam : (Instr.wrOam 0xFDFF 1).wf = false := by decide
theorem test_wf_refuses_write_unmapped : (Instr.wrUnmapped 0xFE9F 1).wf = false := by decide
theorem test_wf_refuses_write_serial : (Instr.wrSerial 0xFF00 1).wf = false := by decide
theorem test_wf_refuses_write_timer : (Instr.wrTimer 0xFF03 1).wf = false := by decide
theorem test_wf_refuses_write_sound : (Instr.wrSound 0xFF40 1).wf = false := by decide
theorem test_wf_refuses_write_lcdreg : (Instr.wrLcdreg 0xFF46 1).wf = false := by decide
theorem test_wf_refuses_write_cgb : (Instr.wrCgb 0xFF80 1).wf = false := by decide
theorem test_wf_refuses_write_hram : (Instr.wrHram 0xFF7F 1).wf = false := by decide

/-! ### Decoding: OP bits 31:30, RSV 29:24, ADDR 23:8, DATA 7:0 (R65), one word for each row with a word -/

-- bit by bit: READ 0xC000; WRITE 0xFF46, 0xC1; ADVANCE 4; INIT
theorem test_decode_read_bits : decode 0b00000000110000000000000000000000#32 = .ok (.rdWram 0xC000) := by decide
theorem test_decode_write_bits : decode 0b01000000111111110100011011000001#32 = .ok (.wrDma 0xC1) := by decide
theorem test_decode_advance_bits : decode 0b10000000000000000000000000000100#32 = .ok (.adv 4) := by decide
theorem test_decode_init_bits : decode 0b11000000000000000000000000000000#32 = .ok .init := by decide

theorem test_decode_read_memory_rows :
    decode 0x007FFF00 = .ok (.rdCart 0x7FFF) ∧ decode 0x00BFFF00 = .ok (.rdCart 0xBFFF) ∧
    decode 0x00800000 = .ok (.rdVram 0x8000) ∧ decode 0x00DFFF00 = .ok (.rdWram 0xDFFF) ∧
    decode 0x00E00000 = .ok (.rdEcho 0xE000) ∧ decode 0x00FE9F00 = .ok (.rdOam 0xFE9F) ∧
    decode 0x00FEA000 = .ok (.rdUnmapped 0xFEA0) ∧ decode 0x00FF8000 = .ok (.rdHram 0xFF80) := by decide

theorem test_decode_read_register_rows :
    decode 0x00FF0000 = .ok .rdJoyp ∧ decode 0x00FF0100 = .ok (.rdSerial 0xFF01) ∧
    decode 0x00FF0700 = .ok (.rdTimer 0xFF07) ∧ decode 0x00FF0F00 = .ok .rdIf ∧
    decode 0x00FF1000 = .ok (.rdSound 0xFF10) ∧ decode 0x00FF4B00 = .ok (.rdLcdreg 0xFF4B) ∧
    decode 0x00FF4400 = .ok .rdLy ∧ decode 0x00FF4600 = .ok .rdDma ∧ decode 0x00FF4C00 = .ok (.rdCgb 0xFF4C) ∧
    decode 0x00FFFF00 = .ok .rdIe := by decide

theorem test_decode_write_memory_rows :
    decode 0x40200001 = .ok (.wrCart 0x2000 0x01) ∧ decode 0x409FFF01 = .ok (.wrVram 0x9FFF 0x01) ∧
    decode 0x40C000AA = .ok (.wrWram 0xC000 0xAA) ∧ decode 0x40FDFF3C = .ok (.wrEcho 0xFDFF 0x3C) ∧
    decode 0x40FE9F08 = .ok (.wrOam 0xFE9F 0x08) ∧ decode 0x40FF0377 = .ok (.wrUnmapped 0xFF03 0x77) ∧
    decode 0x40FF8007 = .ok (.wrHram 0xFF80 0x07) := by decide

theorem test_decode_write_register_rows :
    decode 0x40FF0030 = .ok (.wrJoyp 0x30) ∧ decode 0x40FF0141 = .ok (.wrSerial 0xFF01 0x41) ∧
    decode 0x40FF0705 = .ok (.wrTimer 0xFF07 0x05) ∧ decode 0x40FF0FE1 = .ok (.wrIf 0xE1) ∧
    decode 0x40FF26F1 = .ok (.wrSound 0xFF26 0xF1) ∧ decode 0x40FF47E4 = .ok (.wrLcdreg 0xFF47 0xE4) ∧
    decode 0x40FF4410 = .ok (.wrLy 0x10) ∧ decode 0x40FF46C1 = .ok (.wrDma 0xC1) ∧
    decode 0x40FF7F00 = .ok (.wrCgb 0xFF7F 0x00) ∧ decode 0x40FFFF05 = .ok (.wrIe 0x05) := by decide

-- the pseudo-operations have words only as their expansions (R75)
theorem test_encode_rdw : encode (.rdw 0xFFFF) = [0x00FFFF00, 0x00000000] := by decide
theorem test_encode_wrw : encode (.wrw 0xDFFF 0xBEEF) = [0x40DFFFEF, 0x40E000BE] := by decide
theorem test_encode_dma : encode (.dma 0xC1) = [0x40FF46C1] := by decide

-- 95_test_vectors.md 2.10
theorem test_decode_refusals :
    decode 0x01C00000 = .error .reservedBits ∧ decode 0x3FFFFFFF = .error .reservedBits ∧
    decode 0x00C00001 = .error .readDataNonZero ∧ decode 0x80000100 = .error .advanceAddrNonZero ∧
    decode 0xC0000001 = .error .initOperandsNonZero := by decide

theorem test_decodeTableWord : decodeTableWord 32 0x40FFFF05 = some (.wrIe 0x05) ∧
    decodeTableWord 32 0x01C00000 = none ∧ decodeTableWord 40 0x1C0000000 = none := by decide

theorem test_opcode_rows_count : opcodeRows.length = 36 := by decide

/-! ### READ, one step each (95_test_vectors.md 2.3 and 3; W1 to W8) -/

theorem test_rd_cart : responseOf (runWord 0x00010000 filled) = some (.byte (Config.cartRead ⟨[]⟩ 0x0100)) := rfl
theorem test_rd_vram : responseOf (runWord 0x009FFF00 filled) = some (.byte 0x01) := by decide
theorem test_rd_wram : responseOf (runWord 0x00C12300 filled) = some (.byte 0x5A) := by decide
theorem test_rd_echo : responseOf (runWord 0x00E12300 filled) = some (.byte 0x5A) := by decide
theorem test_rd_oam : responseOf (runWord 0x00FE9F00 filled) = some (.byte 0x08) := by decide
theorem test_rd_unmapped : responseOf (runWord 0x00FEA000 filled) = some (.byte 0x00) := by decide
theorem test_rd_joyp : responseOf (runWord 0x00FF0000 filled) =
    some (.byte (Config.inputRead ⟨[], 0x00⟩ 0xFF00)) := rfl
theorem test_rd_serial_raises : (busOf (runWord 0x00FF0200 filled)).map (·.status) =
    some (.faulted .unsupportedFeatureAccess 0xFF02) := by decide
theorem test_rd_serial_no_data : responseOf (runWord 0x00FF0200 filled) = some .none := by decide
theorem test_rd_timer : responseOf (runWord 0x00FF0500 filled) =
    some (.byte (Config.timerRead ⟨Config.resetTimerLog, 0x00⟩ 0xFF05)) := rfl
theorem test_rd_if_all_bits : responseOf (runWord 0x00FF0F00 filled) = some (.byte 0xE1) := by decide
theorem test_rd_sound : responseOf (runWord 0x00FF1000 filled) = some (.byte 0x00) := by decide
theorem test_rd_lcdreg_lcdc : responseOf (runWord 0x00FF4000 State.reset) = some (.byte 0x91) := by decide
theorem test_rd_lcdreg_wx : responseOf (runWord 0x00FF4B00 filled) = some (.byte 0x77) := by decide
theorem test_rd_ly : responseOf (runWord 0x00FF4400 filled) = some (.byte 0x94) := by decide
theorem test_rd_dma : responseOf (runWord 0x00FF4600 filled) = some (.byte 0x00) := by decide
theorem test_rd_cgb_raises : (busOf (runWord 0x00FF7F00 filled)).map (·.status) =
    some (.faulted .unsupportedFeatureAccess 0xFF7F) := by decide
theorem test_rd_hram : responseOf (runWord 0x00FFFE00 filled) = some (.byte 0x42) := by decide
theorem test_rd_ie : responseOf (runWord 0x00FFFF00 filled) = some (.byte 0x1F) := by decide

/-! ### WRITE, one step each (95_test_vectors.md 2.4) -/

theorem test_wr_cart : (busOf (runWord 0x40200001 State.reset)).map (·.cart) = some ⟨[⟨0x2000, 0x01⟩]⟩ := by decide
theorem test_wr_vram : (busOf (runWord 0x409FFF01 State.reset)).map (·.video.vram) = some [(0x1FFF, 0x01)] := by decide
theorem test_wr_wram : (busOf (runWord 0x40C000AA filled)).map (·.wram) = some [(0, 0xAA), (0x123, 0x5A)] := by decide
theorem test_wr_wram_zero_unlists : (busOf (runWord 0x40C12300 filled)).map (·.wram) = some [] := by decide
theorem test_wr_echo : (busOf (runWord 0x40FDFF3C State.reset)).map (·.wram) = some [(0x1DFF, 0x3C)] := by decide
theorem test_wr_oam : (busOf (runWord 0x40FE9F08 State.reset)).map (·.video.oam) = some [(159, 0x08)] := by decide
theorem test_wr_unmapped : busOf (runWord 0x40FEA0FF filled) = some filled.bus := by decide
theorem test_wr_joyp : (busOf (runWord 0x40FF0030 State.reset)).map (·.input.log) =
    some [.write 0xFF00 0x30] := by decide
theorem test_wr_serial : busOf (runWord 0x40FF0141 filled) = some filled.bus := by decide
theorem test_wr_timer : (busOf (runWord 0x40FF0705 State.reset)).map (·.timer.log) =
    some (.write 0xFF07 0x05 :: Config.resetTimerLog) := by decide
theorem test_wr_if : (busOf (runWord 0x40FF0F34 filled)).map (·.ifReg) = some 0x34 := by decide
theorem test_wr_sound : busOf (runWord 0x40FF26F1 filled) = some filled.bus := by decide
theorem test_wr_lcdreg_stat : (busOf (runWord 0x40FF41FF State.reset)).map (·.video.regs.stat) = some 0xFF := by decide
theorem test_wr_lcdreg_bgp : (busOf (runWord 0x40FF47E4 State.reset)).map (·.video.regs.bgp) = some 0xE4 := by decide
theorem test_wr_ly : (busOf (runWord 0x40FF4410 State.reset)).map (·.video.regs.ly) = some 0x10 := by decide
theorem test_wr_cgb : busOf (runWord 0x40FF7F00 filled) = some filled.bus := by decide
theorem test_wr_hram : (busOf (runWord 0x40FF8007 State.reset)).map (·.hram) = some [(0, 0x07)] := by decide
theorem test_wr_ie : (busOf (runWord 0x40FFFF05 filled)).map (·.ieReg) = some 0x05 := by decide

-- 95_test_vectors.md P2: the source bytes 0xC100, 0xC101, 0xC102, 0xC19F, and 0xC1A0 outside the 160
theorem test_wr_dma : (busOf (runWord 0x40FF46C1 { State.reset with bus := { BusState.reset with
      wram := [(0x100, 0x10), (0x101, 0x20), (0x102, 0x30), (0x19F, 0x99), (0x1A0, 0x77)] } })).map (·.video.oam) =
    some [(0, 0x10), (1, 0x20), (2, 0x30), (159, 0x99)] := by decide +kernel
-- P5: page 0xFF stops at 0xFF01
theorem test_wr_dma_page_ff : (busOf (runWord 0x40FF46FF State.reset)).map (·.status) =
    some (.faulted .unsupportedFeatureAccess 0xFF01) := by decide

/-! ### ADVANCE, INIT and the pseudo-operations -/

-- 95_test_vectors.md 2.8: the timer's argument for 255 cycles is 1020
theorem test_adv_timer_argument : (busOf (runWord 0x800000FF State.reset)).map (·.timer.log.head?) =
    some (some (.advance 1020)) := by decide
theorem test_adv_clears_latches : (busOf (runWord 0x80000004 State.reset)).map
    (fun b => (b.video.render.latch, b.input.latch, b.timer.latch)) = some (0x00, 0x00, 0x00) := by decide

-- W5: the merge of the vblank and timer requests
theorem test_merge_requests : mergeRequest (mergeRequest 0x00 bitVblank) bitTimer = 0x05 := by decide

-- 95_test_vectors.md 2.9
theorem test_init : busOf (exec .init State.powerOn) = some BusState.reset := by decide
theorem test_init_timer_writes_in_order : (busOf (exec .init State.powerOn)).map (·.timer.log.reverse) =
    some [.write 0xFF05 0x00, .write 0xFF06 0x00, .write 0xFF07 0x00] := by decide

-- 46_init.md R161: another table gives its own values
theorem test_init_with_another_table : (busOf (exec .init (State.powerOnWith [(0xFF40, 0x12), (0xFFFF, 0x1F)]))).map
    (fun b => (b.video.regs.lcdc, b.video.regs.bgp, b.ieReg)) = some (0x12, 0x00, 0x1F) := by decide

-- 10_state.md R27: a request a write has left in the latch is merged at the next ADVANCE
theorem test_adv_merges_a_held_request : (busOf (runWord 0x80000001 { State.reset with bus := { BusState.reset with
      input := { log := [], latch := 0x10 } } })).map (·.ifReg) =
    some (((0x00 ||| Config.renderLatch BusState.reset.video 1) |||
      (0x10 ||| Config.inputAdvanceLatch ⟨[], 0x10⟩ 1)) |||
      (0x00 ||| Config.timerAdvanceLatch ⟨Config.resetTimerLog, 0x00⟩ 4)) := rfl

-- 95_test_vectors.md 2.5
theorem test_rdw : responseOf (exec (.rdw 0xFF43) State.reset) = some (.word 0x9400) := by decide
theorem test_rdw_raises_in_second : (busOf (exec (.rdw 0xFF00) State.reset)).map (·.status) =
    some (.faulted .unsupportedFeatureAccess 0xFF01) := by decide
theorem test_wrw : (busOf (exec (.wrw 0xFFFE 0xABCD) State.reset)).map (fun b => (b.hram, b.ieReg)) =
    some ([(0x7E, 0xCD)], 0xAB) := by decide
theorem test_wrw_dma : (busOf (exec (.wrw 0xFF45 0xC107) { State.reset with bus := { BusState.reset with
      wram := [(0x100, 0x10)] } })).map (fun b => (b.video.regs.lyc, b.video.oam)) =
    some (0x07, [(0, 0x10)]) := by decide +kernel
-- 42_word_access.md R121's pseudocode at 0xFF46 (log entry 19): the transfer, then 0xFF47, which is BGP (R13)
theorem test_wrw_at_dma_register : (busOf (exec (.wrw 0xFF46 0x5AC1) { State.reset with bus := { BusState.reset with
      wram := [(0x100, 0x10)] } })).map (fun b => (b.video.oam, b.video.regs.bgp, b.video.regs.ly)) =
    some ([(0, 0x10)], 0x5A, 0x00) := by decide +kernel
theorem test_dma : (busOf (exec (.dma 0xE1) { State.reset with bus := { BusState.reset with
      wram := [(0x100, 0x10)] } })).map (·.video.oam) = some [(0, 0x10)] := by decide +kernel

/-! ### Refusals, the faulted state, the video model's interface -/

theorem test_late_init : refusalOf (runWord 0xC0000000 State.reset) = some .lateInit := by decide
theorem test_first_not_init : refusalOf (runWord 0x00C00000 State.powerOn) = some .firstNotInit := by decide
theorem test_malformed : refusalOf (runWord 0x00C00001 State.reset) = some (.malformed .readDataNonZero) := by decide
theorem test_faulted_accepts_nothing : faultOf (runWord 0x40C00002 faulted) =
    some (.halted .unsupportedFeatureAccess 0xFF02) := by decide
theorem test_idle : step State.reset = .next State.reset := rfl

-- 95_test_vectors.md 2.6
theorem test_read_register_unknown : readRegister BusState.reset 0xFF46 =
    .raised (BusState.reset.fault .unknownRegisterAccess 0xFF46) := by decide
theorem test_read_sprite_memory_refused : readSpriteMemory BusState.reset 0xFEA0 = .refused .oamIndexOutOfRange := by
  decide
theorem test_write_sprite_memory : writeSpriteMemory BusState.reset 0x009F 0x01 =
    .done { BusState.reset with video := { BusState.reset.video with oam := [(159, 0x01)] } } := by decide

-- the word that withFetchWord places is the one the next step runs, INIT too
theorem test_withFetchWord : step (State.reset.withFetchWord 32 0x40FFFF05) = exec (.wrIe 0x05) State.reset := rfl
theorem test_withFetchWord_init : (busOf (step (State.reset.withFetchWord 32 0xC0000000))) = some BusState.reset := by
  decide

/-! ### Witnesses: for every statement with hypotheses, operands that meet them -/

theorem witness_DecodeOfEncodeIsTheCommand :
    (Instr.wrLcdreg 0xFF4B 0xFF).wf = true ∧ (Instr.wrLcdreg 0xFF4B 0xFF).isCommand = true := by decide
theorem witness_EncodeOfDecodeIsTheWord : decode 0x40FFFEFF = .ok (.wrHram 0xFFFE 0xFF) := by decide
theorem witness_ExactlyOneOpcodeRowSelectsAWord :
    decode 0x00FF4500 = .ok (.rdLcdreg 0xFF45) ∧ decode 0xC0000100 = .error .initOperandsNonZero := by decide

theorem witness_StorageAccessesReachTheWindowOffset :
    (0x8000 ≤ (0x9FFF : Addr).toNat ∧ (0x9FFF : Addr).toNat ≤ 0x9FFF) ∧
    (0xC000 ≤ (0xDFFF : Addr).toNat ∧ (0xDFFF : Addr).toNat ≤ 0xDFFF) ∧
    (0xE000 ≤ (0xFDFF : Addr).toNat ∧ (0xFDFF : Addr).toNat ≤ 0xFDFF) ∧
    (0xFE00 ≤ (0xFE9F : Addr).toNat ∧ (0xFE9F : Addr).toNat ≤ 0xFE9F) ∧
    (0xFF80 ≤ (0xFFFE : Addr).toNat ∧ (0xFFFE : Addr).toNat ≤ 0xFFFE) := by decide
theorem witness_StorageReadsReturnTheStoredByte : State.reset.accepting ∧
    (0x8000 ≤ (0x8000 : Addr).toNat ∧ (0x8000 : Addr).toNat ≤ 0x9FFF) ∧
    (0xC000 ≤ (0xC000 : Addr).toNat ∧ (0xC000 : Addr).toNat ≤ 0xDFFF) ∧
    (0xE000 ≤ (0xE000 : Addr).toNat ∧ (0xE000 : Addr).toNat ≤ 0xFDFF) ∧
    (0xFE00 ≤ (0xFE00 : Addr).toNat ∧ (0xFE00 : Addr).toNat ≤ 0xFE9F) ∧
    (0xFF80 ≤ (0xFF80 : Addr).toNat ∧ (0xFF80 : Addr).toNat ≤ 0xFFFE) := by decide
theorem witness_InterruptRegisterReads : filled.accepting := by decide
theorem witness_LyReadsAs148 : filled.accepting := by decide
theorem witness_LcdRegisterReads : filled.accepting := by decide
theorem witness_UnmappedAndSoundReadZero : State.reset.accepting ∧
    (0xFEA0 ≤ (0xFEA0 : Addr).toNat ∧ (0xFEA0 : Addr).toNat ≤ 0xFEFF) ∧ (0xFF03 : Addr).toNat = 0xFF03 ∧
    (0xFF08 ≤ (0xFF0E : Addr).toNat ∧ (0xFF0E : Addr).toNat ≤ 0xFF0E) ∧
    (0xFF10 ≤ (0xFF10 : Addr).toNat ∧ (0xFF10 : Addr).toNat ≤ 0xFF3F) := by decide
theorem witness_DmaRegisterReadsZero : State.reset.accepting := by decide
theorem witness_CollaboratorReads : State.reset.accepting ∧ region 0x7FFF = .cartRom ∧ region 0xA000 = .cartRam ∧
    region 0xFF04 = .timer ∧ region 0xFF07 = .timer := by decide
theorem witness_SerialAndCgbReadsRaise : State.reset.accepting ∧
    (0xFF01 ≤ (0xFF02 : Addr).toNat ∧ (0xFF02 : Addr).toNat ≤ 0xFF02) ∧
    (0xFF4C ≤ (0xFF4C : Addr).toNat ∧ (0xFF4C : Addr).toNat ≤ 0xFF7F) := by decide
theorem witness_ReadsChangeNoBusState : State.reset.accepting ∧ (region 0xFF4B).fatalOnRead = false ∧
    (region 0xFF4C).fatalOnRead = true := by decide
theorem witness_ReadingTwiceGivesTheSameByte : State.reset.accepting ∧ (region 0xFF00).fatalOnRead = false := by decide

theorem witness_StorageWritesStoreExactlyOneByte : State.reset.accepting ∧ region 0x8000 = .vram ∧
    region 0xC000 = .wram ∧ region 0xE000 = .echo ∧ region 0xFE00 = .oam ∧ region 0xFF80 = .hram := by decide
theorem witness_InterruptRegisterWrites : State.reset.accepting := by decide
theorem witness_LcdRegisterWrites : State.reset.accepting := by decide
theorem witness_LyWriteStoresAndStillReads148 : State.reset.accepting := by decide
theorem witness_IgnoredWritesChangeNothing : State.reset.accepting ∧
    (0xFEA0 ≤ (0xFEFF : Addr).toNat ∧ (0xFEFF : Addr).toNat ≤ 0xFEFF) ∧
    (0xFF01 ≤ (0xFF01 : Addr).toNat ∧ (0xFF01 : Addr).toNat ≤ 0xFF02) ∧
    (0xFF10 ≤ (0xFF3F : Addr).toNat ∧ (0xFF3F : Addr).toNat ≤ 0xFF3F) ∧
    (0xFF4C ≤ (0xFF7F : Addr).toNat ∧ (0xFF7F : Addr).toNat ≤ 0xFF7F) := by decide
theorem witness_CollaboratorWrites : State.reset.accepting ∧ region 0x0000 = .cartRom ∧ region 0xBFFF = .cartRam ∧
    region 0xFF07 = .timer := by decide
theorem witness_WriteThenReadAnywhere : State.reset.accepting ∧
    region 0xDFFF ∈ [Region.vram, .wram, .echo, .oam, .hram, .ifReg, .ie, .lcdreg] ∧
    region 0xFFFF ∈ [Region.vram, .wram, .echo, .oam, .hram, .ifReg, .ie, .lcdreg] := by decide
theorem witness_NonStoringWritesLeaveReadsAlone : State.reset.accepting ∧
    region 0xFF44 ∈ [Region.unmapped, .serial, .sound, .cgb, .ly] ∧ region 0xA000 ∈ [Region.cartRom, .cartRam] ∧
    region 0x8000 ∉ [Region.cartRom, .cartRam] ∧ region 0xFF00 ∈ [Region.joyp, .timer] ∧
    region 0xFF01 ≠ region 0xFF00 := by decide

theorem witness_DmaCopies160Bytes : State.reset.accepting ∧ (0xFE#8 : Byte) ≠ 0xFF#8 ∧ (0x00#8 : Byte) ≠ 0xFF#8 ∧
    region 0xFEA0 ≠ .oam := by decide
theorem witness_DmaFromPageFFFaults : State.reset.accepting := by decide
theorem witness_DmaFromOamItselfChangesNothing : filled.accepting ∧ filled.bus.memoriesWf := by decide

theorem witness_RdwReturnsHighThenLow : State.reset.accepting ∧ peek State.reset.bus 0xFF43 = some 0x00 ∧
    peek State.reset.bus (0xFF43 + 1) = some 0x94 := by decide
theorem witness_RdwRaisesAtItsFirstFatalByte : State.reset.accepting ∧ (region 0xFF01).fatalOnRead = true ∧
    (region 0xFF4B).fatalOnRead = false ∧ (region (0xFF4B + 1)).fatalOnRead = true := by decide
theorem witness_WrwIsTwoWrites_first_completes :
    ∃ t, exec (decodeWrite 0xC000 ((0x1234 : Word).extractLsb' 0 8)) State.reset = .next t ∧
      t.bus.status = .running := ⟨_, rfl, rfl⟩
theorem witness_WrwIsTwoWrites_first_raises :
    ∃ t, exec (decodeWrite 0xFF46 ((0x12FF : Word).extractLsb' 0 8)) State.reset = .next t ∧
      t.bus.status ≠ .running := ⟨_, rfl, by decide⟩
theorem witness_WrwCompletes : State.reset.accepting ∧
    ((0xFF45 : Addr) ≠ 0xFF46#16 ∨ (0xC107 : Word).toNat % 256 ≠ 0xFF) ∧
    ((0xFF45 : Addr) + 1 ≠ 0xFF46#16 ∨ (0xC107 : Word).toNat / 256 ≠ 0xFF) := by decide
theorem witness_WordRoundTrip : State.reset.accepting ∧
    region 0xFFFE ∈ [Region.vram, .wram, .echo, .oam, .hram, .ifReg, .ie, .lcdreg] ∧
    region (0xFFFE + 1) ∈ [Region.vram, .wram, .echo, .oam, .hram, .ifReg, .ie, .lcdreg] := by decide

theorem witness_AdvanceMergesAndClearsEveryRequest : filled.accepting := by decide
theorem witness_WriteRequestsReachIfAtTheNextAdvance : filled.accepting ∧
    (0xFF04 ≤ (0xFF07 : Addr).toNat ∧ (0xFF07 : Addr).toNat ≤ 0xFF07) := by decide
theorem witness_AdvanceAdvancesTheThreeDevicesOnly : filled.accepting := by decide
theorem witness_AdvanceOfADeviceDependsOnItAlone : ∃ t t', State.reset.accepting ∧
    State.accepting { State.reset with bus := { BusState.reset with ifReg := 0x10 } } ∧
    exec (.adv 4) State.reset = .next t ∧
    exec (.adv 4) { State.reset with bus := { BusState.reset with ifReg := 0x10 } } = .next t' ∧
    State.reset.bus.video = ({ BusState.reset with ifReg := 0x10 } : BusState).video :=
  ⟨_, _, by decide, by decide, rfl, rfl, rfl⟩

theorem witness_InitLeavesTheResetState : State.powerOn.bus.status = .running ∧ State.powerOn.pos = 0 ∧
    State.powerOn.powerOnTable = Config.defaultPowerOnTable := by decide
theorem witness_InitCompletesForEveryTableWithoutAFaultingDma :
    State.powerOn.bus.status = .running ∧ State.powerOn.pos = 0 ∧
    ∀ e ∈ State.powerOn.powerOnTable, e.1 ≠ 0xFF46#16 ∨ e.2 ≠ 0xFF#8 := by
  have h : Config.defaultPowerOnTable.all (fun e => decide (e.1 ≠ 0xFF46#16 ∨ e.2 ≠ 0xFF#8)) = true := by decide
  exact ⟨rfl, rfl, fun e he => of_decide_eq_true (List.all_eq_true.1 h e he)⟩
theorem witness_InitCompletesForEveryTable_faulting :
    (State.powerOnWith [(0xFF46, 0xFF)]).bus.status = .running ∧ (State.powerOnWith [(0xFF46, 0xFF)]).pos = 0 ∧
    ∃ e ∈ (State.powerOnWith [(0xFF46, 0xFF)]).powerOnTable, e.1 = 0xFF46#16 ∧ e.2 = 0xFF#8 :=
  ⟨rfl, rfl, _, List.mem_singleton.2 rfl, rfl, rfl⟩
theorem witness_InitSetsTheRegistersTheTableNames_named :
    (State.powerOnWith [(0xFF40, 0x01), (0xFF40, 0x93), (0xFF41, 0x02)]).powerOnTable =
      [(0xFF40, 0x01)] ++ (0xFF40, 0x93) :: [(0xFF41, 0x02)] ∧
    (State.powerOnWith [(0xFF40, 0x01), (0xFF40, 0x93), (0xFF41, 0x02)]).bus.status = .running ∧
    (State.powerOnWith [(0xFF40, 0x01), (0xFF40, 0x93), (0xFF41, 0x02)]).pos = 0 ∧
    region 0xFF40 ∈ [Region.lcdreg, .ifReg, .ie] ∧
    (∀ e ∈ ([(0xFF40, 0x01)] ++ [(0xFF41, 0x02)] : List (Addr × Byte)), region e.1 ≠ .dma) ∧
    (∀ e ∈ ([(0xFF41, 0x02)] : List (Addr × Byte)), e.1 ≠ 0xFF40) := by
  refine ⟨rfl, rfl, rfl, by decide, List.forall_mem_cons.2 ⟨by decide, List.forall_mem_singleton.2 (by decide)⟩,
    List.forall_mem_singleton.2 (by decide)⟩
theorem witness_InitSetsTheRegistersTheTableNames_unnamed :
    (State.powerOnWith []).powerOnTable = [] ∧ (State.powerOnWith []).bus.status = .running ∧
    (State.powerOnWith []).pos = 0 ∧ region 0xFFFF ∈ [Region.lcdreg, .ifReg, .ie] := by decide
theorem witness_InitIsFirstAndOnlyFirst : State.reset.bus.status = .running ∧ State.reset.pos ≠ 0 ∧
    State.powerOn.bus.status = .running ∧ State.powerOn.pos = 0 ∧ Instr.adv 4 ≠ .init := by decide

theorem witness_StepRunsTheDecodedCommand : (loaded 0x80000004).bus.status = .running ∧
    (loaded 0x80000004).pending = 0x80000004 :: [] ∧ decode 0x80000004 = .ok (.adv 4) := by decide
theorem witness_FaultedAcceptsNoCommand : faulted.bus.status = .faulted .unsupportedFeatureAccess 0xFF02 := by decide
theorem witness_MalformedWordsAreRefused : (loaded 0x01C00000).bus.status = .running ∧
    (0x01C00000 : CmdWord).toNat / 2 ^ 24 % 64 ≠ 0 ∧
    ((0x00C00001 : CmdWord).toNat / 2 ^ 24 = 0x00 ∧ (0x00C00001 : CmdWord).toNat % 256 ≠ 0) ∧
    ((0x80000100 : CmdWord).toNat / 2 ^ 24 = 0x80 ∧ (0x80000100 : CmdWord).toNat / 256 % 65536 ≠ 0) ∧
    ((0xC0000001 : CmdWord).toNat / 2 ^ 24 = 0xC0 ∧ (0xC0000001 : CmdWord).toNat % 2 ^ 24 ≠ 0) := by decide
theorem witness_OnlySerialAndCgbReadsFault_read : ∃ t, step (loaded 0x00FF0100) = .next t ∧
    t.bus.status = .faulted .unsupportedFeatureAccess 0xFF01 := ⟨_, rfl, rfl⟩
theorem witness_OnlySerialAndCgbReadsFault_dma : ∃ t, step (loaded 0x40FF46FF) = .next t ∧
    t.bus.status = .faulted .unsupportedFeatureAccess 0xFF01 := ⟨_, rfl, rfl⟩

theorem witness_UnknownVideoRegistersRaise : (0xFF46#16 : Addr) ∉
      [0xFF40#16, 0xFF41#16, 0xFF42#16, 0xFF43#16, 0xFF44#16, 0xFF45#16, 0xFF47#16, 0xFF48#16, 0xFF49#16, 0xFF4A#16,
       0xFF4B#16] ∧ videoRegAt 0xFF4B = some .wx := by decide
theorem witness_SpriteMemoryIndexIsChecked : 160 ≤ (0xFEA0 : Addr).toNat % 256 ∧ (0xFE9F : Addr).toNat % 256 < 160 := by
  decide

theorem witness_OnlySerialAndCgbReadsFault_init :
    ∃ t, step { State.powerOnWith [(0xFF46, 0xFF)] with pending := [0xC0000000] } = .next t ∧
      t.bus.status = .faulted .unsupportedFeatureAccess 0xFF01 := ⟨_, rfl, rfl⟩

theorem witness_StepKeepsTheInvariant : (loaded 0x40C000AA).invariant ∧ ∃ t, step (loaded 0x40C000AA) = .next t :=
  ⟨⟨reset_memoriesWf, fun _ _ h => by cases h⟩, _, rfl⟩
theorem witness_EveryCommandMovesThePositionByOne : (loaded 0x80000004).pending = 0x80000004 :: [] ∧
    ∃ t, step (loaded 0x80000004) = .next t := ⟨rfl, _, rfl⟩
theorem witness_OnlyTheseCommandsChangeIfAndIe : ∃ t, (loaded 0x40C000AA).pending = 0x40C000AA :: [] ∧
    decode 0x40C000AA = .ok (.wrWram 0xC000 0xAA) ∧ step (loaded 0x40C000AA) = .next t ∧
    (∀ c, Instr.wrWram 0xC000 0xAA ≠ .adv c) ∧ (∀ v, Instr.wrWram 0xC000 0xAA ≠ .wrIf v) ∧
    (∀ v, Instr.wrWram 0xC000 0xAA ≠ .wrIe v) ∧ Instr.wrWram 0xC000 0xAA ≠ .init :=
  ⟨_, rfl, by decide, rfl, nofun, nofun, nofun, nofun⟩
theorem witness_TheLastHramByteIsNeverWritten : ∃ t, (loaded 0x40FFFE42).pending = 0x40FFFE42 :: [] ∧
    decode 0x40FFFE42 = .ok (.wrHram 0xFFFE 0x42) ∧ Instr.wrHram 0xFFFE 0x42 ≠ .init ∧
    step (loaded 0x40FFFE42) = .next t := ⟨_, rfl, by decide, nofun, rfl⟩
theorem witness_LatchesAreZeroBetweenCommands : ∃ t, (loaded 0x40FF0705).pending = 0x40FF0705 :: [] ∧
    decode 0x40FF0705 = .ok (.wrTimer 0xFF07 0x05) ∧ step (loaded 0x40FF0705) = .next t ∧
    (loaded 0x40FF0705).bus.latchesClear ∧ ∀ v, Instr.wrTimer 0xFF07 0x05 ≠ .wrJoyp v :=
  ⟨_, rfl, by decide, rfl, by decide, nofun⟩

/-- Two safe words: a WRITE to 0xC000 and a DMA from page 0xC1. -/
theorem safeWord_examples : SafeWord 0x40C000AA ∧ SafeWord 0x40FF46C1 :=
  ⟨⟨.wrWram 0xC000 0xAA, by decide, nofun, nofun, nofun, nofun⟩,
   ⟨.wrDma 0xC1, by decide, nofun, nofun, nofun, by decide⟩⟩
theorem witness_SafeStreamsRunToTheEnd :
    ({ State.reset with pending := [0x40C000AA, 0x40FF46C1] } : State).safelyLoaded :=
  ⟨by decide, List.forall_mem_cons.2 ⟨safeWord_examples.1, List.forall_mem_singleton.2 safeWord_examples.2⟩⟩
theorem witness_NoRequestIsLost_write : ∃ t, (loaded 0x40FF0030).pending = 0x40FF0030 :: [] ∧
    decode 0x40FF0030 = .ok (.wrJoyp 0x30) ∧ Instr.wrJoyp 0x30 ≠ .init ∧ step (loaded 0x40FF0030) = .next t ∧
    ∀ c, Instr.wrJoyp 0x30 ≠ .adv c := ⟨_, rfl, by decide, nofun, rfl, nofun⟩
theorem witness_NoRequestIsLost_advance : ∃ t, (loaded 0x80000004).pending = 0x80000004 :: [] ∧
    decode 0x80000004 = .ok (.adv 4) ∧ Instr.adv 4 ≠ .init ∧ step (loaded 0x80000004) = .next t :=
  ⟨_, rfl, by decide, nofun, rfl⟩
theorem witness_StepKeepsASafeStreamSafe : (loaded 0x40FF46C1).safelyLoaded :=
  ⟨by decide, List.forall_mem_singleton.2 safeWord_examples.2⟩

end Sys2Proof.Tests
end

section
/-! PROOFS. What a decoded command can do to the bus, said once as an inversion of `step`, and the whole-machine rules of
spec/10_state.md derived from it: IF, IE, the last byte of high RAM, the latches, the position.
-/
namespace Sys2Proof

/-! ### The instruction of an address, and the index of an HRAM address -/

/-- A WRITE at the input controller's address is WR.JOYP (30_encoding.md R70). -/
theorem decodeWrite_of_joyp {a : Addr} (h : region a = .joyp) (v : Byte) : decodeWrite a v = .wrJoyp v := by
  simp only [decodeWrite, h]

theorem decodeWrite_of_timer {a : Addr} (h : region a = .timer) (v : Byte) : decodeWrite a v = .wrTimer a v := by
  simp only [decodeWrite, h]

theorem decodeWrite_of_ifReg {a : Addr} (h : region a = .ifReg) (v : Byte) : decodeWrite a v = .wrIf v := by
  simp only [decodeWrite, h]

theorem decodeWrite_of_ie {a : Addr} (h : region a = .ie) (v : Byte) : decodeWrite a v = .wrIe v := by
  simp only [decodeWrite, h]

theorem decodeRead_ne_adv (a : Addr) (c : Cycles) : decodeRead a ≠ .adv c := by
  unfold decodeRead
  cases region a <;> simp

theorem decodeWrite_ne_adv (a : Addr) (v : Byte) (c : Cycles) : decodeWrite a v ≠ .adv c := by
  unfold decodeWrite
  cases region a <;> simp

/-- The HRAM window stops one byte short of the array: address 0xFFFF is IE (10_state.md R20, 20_memory.md R48). -/
theorem hramIndex_lt_last_of_region {a : Addr} (h : region a = .hram) : hramIndex a < 0x7F := by
  have hc := region_cases a
  rw [h] at hc
  simp only [reduceCtorEq, false_and, true_and, false_or, or_false] at hc
  rw [hramIndex_eq]
  omega

/-! ### Requests held through a merge -/

/-- A request in a byte that is merged with others is in the result (10_state.md R27, 45_advance.md R152). -/
theorem held_of_merge_left {held x : IntFlags} (h : held &&& x = held) (bits : IntFlags) :
    held &&& mergeRequest x bits = held := by
  ext i hi
  have hx : (held[i] && x[i]) = held[i] := by rw [← BitVec.getElem_and, h]
  rw [mergeRequest, BitVec.getElem_and, BitVec.getElem_or, Bool.and_or_distrib_left, hx]
  cases held[i] <;> rfl

/-- A request in the byte that is merged in is in the result (R152). -/
theorem held_of_merge_right {held x : IntFlags} (h : held &&& x = held) (bits : IntFlags) :
    held &&& mergeRequest bits x = held := by
  rw [mergeRequest, BitVec.or_comm]
  exact held_of_merge_left h bits

/-- A write to the input controller keeps the requests its latch holds (log entry 6). -/
theorem InputState.write_keeps_requests (d : InputState) (a : Addr) (v : Byte) :
    d.latch &&& (d.write a v).latch = d.latch := held_of_merge_left BitVec.and_self _

/-- A write to the timer keeps the requests its latch holds (log entry 6). -/
theorem TimerState.write_keeps_requests (d : TimerState) (a : Addr) (v : Byte) :
    d.latch &&& (d.write a v).latch = d.latch := held_of_merge_left BitVec.and_self _

namespace Machine

/-- An ADVANCE puts the requests the input controller's latch holds in IF: they stay in the latch through its own advance,
are merged, and stay in IF through the timer's merge (45_advance.md R151, R152). -/
theorem advanceBus_merges_input (b : BusState) (c : Cycles) :
    b.input.latch &&& (advanceBus b c).ifReg = b.input.latch :=
  held_of_merge_left (held_of_merge_right (held_of_merge_left BitVec.and_self _) _) _

/-- An ADVANCE puts the requests the timer's latch holds in IF (R151, R152). -/
theorem advanceBus_merges_timer (b : BusState) (c : Cycles) :
    b.timer.latch &&& (advanceBus b c).ifReg = b.timer.latch :=
  held_of_merge_right (held_of_merge_left BitVec.and_self _) _

/-! ### What a command can do to the bus -/

/-- A bus that an access ends in, completed or raised, meets what the access leaves. -/
theorem Access.leaves.of_end {P : BusState → Prop} {r : Access BusState} (h : r.leaves P) {b : BusState}
    (hb : r = .done b ∨ r = .raised b) : P b := by
  rcases hb with rfl | rfl <;> exact h

/-- Every bus a byte write can leave (41_byte_write.md R118): a device, a register or high RAM only at an address of its
own region; from any other address, a DMA among them, none of these, and nothing of the renderer's. -/
inductive ByteWriteEffect (b : BusState) (a : Addr) (v : Byte) : BusState → Prop where
  | joyp (h : region a = .joyp) : ByteWriteEffect b a v { b with input := b.input.write Config.joypAddr v }
  | timer (h : region a = .timer) : ByteWriteEffect b a v { b with timer := b.timer.write a v }
  | ifReg (h : region a = .ifReg) : ByteWriteEffect b a v { b with ifReg := v }
  | ie (h : region a = .ie) : ByteWriteEffect b a v { b with ieReg := v }
  | hram (h : region a = .hram) :
      ByteWriteEffect b a v { b with hram := Memory.writeByte b.hram (hramIndex a) v }
  | elsewhere (wram : Memory) (cart : CartState) (regs : VideoRegs) (vram oam : Memory) (status : Status) :
      ByteWriteEffect b a v { b with
        wram := wram, cart := cart, status := status
        video := { regs := regs, vram := vram, oam := oam, render := b.video.render } }

/-- Every byte write, completed or raised, has one of these effects. -/
theorem memWrite_effect (b : BusState) (a : Addr) (v : Byte) : (memWrite b a v).leaves (ByteWriteEffect b a v) := by
  unfold memWrite
  cases hr : region a
  case joyp => exact .joyp hr
  case timer => exact .timer hr
  case ifReg => exact .ifReg hr
  case ie => exact .ie hr
  case hram => exact .hram hr
  case oam =>
    simp only [writeOam, writeSpriteMemory]
    split
    · exact .elsewhere ..
    · trivial
  case dma =>
    simp only [writeDma]
    have h := dmaTransfer_leaves b v
    cases hd : dmaTransfer b v <;> simp only [hd, Access.leaves] at h ⊢
    all_goals
      obtain ⟨m, st, rfl⟩ := h
      exact .elsewhere ..
  case lcdreg =>
    simp only [writeLcdreg, writeRegister]
    cases videoRegAt a <;> exact .elsewhere ..
  all_goals exact .elsewhere ..

/-- Every bus that a decoded command can leave, faulting commands included. -/
inductive CommandEffect (s : State) : Instr → BusState → Prop where
  | read (a : Addr) (status : Status) : CommandEffect s (decodeRead a) { s.bus with status := status }
  | write (a : Addr) (v : Byte) (b : BusState) (h : ByteWriteEffect s.bus a v b) : CommandEffect s (decodeWrite a v) b
  | adv (c : Cycles) : CommandEffect s (.adv c) (advanceBus s.bus c)
  | init (b : BusState) (h : initBus s.powerOnTable = .done b ∨ initBus s.powerOnTable = .raised b) :
      CommandEffect s .init b

/-- A decoded command's next state is a response (30_encoding.md R67). -/
theorem exec_decoded_responds {s t : State} {w : CmdWord} {i : Instr} (hd : decode w = .ok i)
    (h : exec i s = .next t) : ∃ b r, t = s.respond b r := by
  rcases decode_cases hd with rfl | rfl | rfl | rfl
  · rw [exec_decodeRead] at h
    obtain ⟨_, ⟨v, _, ht⟩ | ⟨b, _, ht⟩⟩ := readCommand_next h <;> exact ⟨_, _, ht⟩
  · rw [exec_decodeWrite] at h
    obtain ⟨_, b, _, ht⟩ := writeCommand_next h
    exact ⟨_, _, ht⟩
  · change command s (fun b => .done (advanceBus b (dataField w), .none)) = _ at h
    obtain ⟨_, ⟨b, r, _, ht⟩ | ⟨b, _, ht⟩⟩ := command_next h <;> exact ⟨_, _, ht⟩
  · obtain ⟨_, _, b, _, ht⟩ := execInit_next h
    exact ⟨_, _, ht⟩

/-- A step that takes a command is no idle step: the position moves. -/
theorem step_ne_self_of_pending {s : State} {w : CmdWord} {rest : List CmdWord} (hp : s.pending = w :: rest) :
    step s ≠ .next s := by
  intro h
  obtain ⟨_, ⟨hn, _⟩ | ⟨_, rest', i, _, hd, he⟩⟩ := step_next h
  · simp [hp] at hn
  · obtain ⟨b, r, ht⟩ := exec_decoded_responds hd he
    have hpos : s.pos = s.pos + 1 := congrArg State.pos ht
    omega

/-- A step that takes a decoded command leaves one of that command's effects on the bus. -/
theorem step_effect {s t : State} {w : CmdWord} {rest : List CmdWord} {i : Instr} (hp : s.pending = w :: rest)
    (hd : decode w = .ok i) (h : step s = .next t) : CommandEffect s i t.bus := by
  obtain rfl | ⟨w', rest', hp', _, _, _, hcases⟩ := step_bus_cases h
  · exact absurd h (step_ne_self_of_pending hp)
  obtain ⟨rfl, rfl⟩ := List.cons.inj (hp.symm.trans hp')
  rw [hd] at hcases
  obtain ⟨⟨⟩, hb | ⟨_, hb⟩⟩ | ⟨⟨⟩, hb⟩ | ⟨⟨⟩, hb⟩ | ⟨⟨⟩, hb⟩ := hcases
  · rw [hb]
    exact .read _ s.bus.status
  · rw [hb]
    exact .read ..
  · exact .write _ _ _ ((memWrite_effect ..).of_end hb)
  · rw [hb]
    exact .adv _
  · exact .init _ hb

/-! ### What the effects keep -/

/-- IF is changed by ADVANCE, a write to 0xFF0F and INIT alone (10_state.md R17). -/
theorem CommandEffect.keeps_ifReg {s : State} {i : Instr} {b : BusState} (h : CommandEffect s i b)
    (hadv : ∀ c, i ≠ .adv c) (hwrite : ∀ v, i ≠ .wrIf v) (hinit : i ≠ .init) : b.ifReg = s.bus.ifReg := by
  cases h with
  | read => rfl
  | write a v _ hw =>
    cases hw with
    | ifReg hr => exact absurd (decodeWrite_of_ifReg hr v) (hwrite v)
    | joyp | timer | ie | hram | elsewhere => rfl
  | adv c => exact absurd rfl (hadv c)
  | init => exact absurd rfl hinit

/-- IE is changed by a write to 0xFFFF and INIT alone (10_state.md R18). -/
theorem CommandEffect.keeps_ieReg {s : State} {i : Instr} {b : BusState} (h : CommandEffect s i b)
    (hwrite : ∀ v, i ≠ .wrIe v) (hinit : i ≠ .init) : b.ieReg = s.bus.ieReg := by
  cases h with
  | read | adv => rfl
  | write a v _ hw =>
    cases hw with
    | ie hr => exact absurd (decodeWrite_of_ie hr v) (hwrite v)
    | joyp | timer | ifReg | hram | elsewhere => rfl
  | init => exact absurd rfl hinit

/-- No command but INIT changes the last byte of high RAM: no HRAM address has its index (10_state.md R20). -/
theorem CommandEffect.keeps_last_hram_byte {s : State} {i : Instr} {b : BusState} (h : CommandEffect s i b)
    (hinit : i ≠ .init) : Memory.readByte b.hram 0x7F = Memory.readByte s.bus.hram 0x7F := by
  cases h with
  | read | adv => rfl
  | write a v _ hw =>
    cases hw with
    | hram hr => exact Memory.readByte_writeByte_of_ne _ v (hramIndex_lt_last_of_region hr).ne'
    | joyp | timer | ifReg | ie | elsewhere => rfl
  | init => exact absurd rfl hinit

/-- An INIT that ends running has completed, so its three latches are 0x00 (10_state.md R35, log entry 6). -/
theorem initBus_latchesClear {table : List (Addr × Byte)} {b : BusState}
    (h : initBus table = .done b ∨ initBus table = .raised b) (hs : b.status = .running) : b.latchesClear := by
  obtain ⟨_, b', hb, _, hclear⟩ | ⟨_, b', hb, hf⟩ := initBus_cases table <;> rw [hb] at h
  · obtain ⟨⟨⟩⟩ | ⟨⟨⟩⟩ := h
    exact hclear
  · obtain ⟨⟨⟩⟩ | ⟨⟨⟩⟩ := h
    rw [hs] at hf
    cases hf

/-- The video latch is 0x00 after every command, if it was before (10_state.md R27). -/
theorem CommandEffect.video_latch_clear {s : State} {i : Instr} {b : BusState} (h : CommandEffect s i b)
    (hv : s.bus.video.render.latch = 0x00) : b.video.render.latch = 0x00 := by
  cases h with
  | read => exact hv
  | write a v _ hw => cases hw <;> exact hv
  | adv => rfl
  | init _ hb => exact (initBus_render_latch _).of_end hb

/-- The input latch stays 0x00, but for a write to the input controller (10_state.md R27). -/
theorem CommandEffect.input_latch_clear {s : State} {i : Instr} {b : BusState} (h : CommandEffect s i b)
    (hwrite : ∀ v, i ≠ .wrJoyp v) (hinit : i = .init → b.status = .running) (hl : s.bus.input.latch = 0x00) :
    b.input.latch = 0x00 := by
  cases h with
  | read => exact hl
  | write a v _ hw =>
    cases hw with
    | joyp hr => exact absurd (decodeWrite_of_joyp hr v) (hwrite v)
    | timer | ifReg | ie | hram | elsewhere => exact hl
  | adv => rfl
  | init _ hb => exact (initBus_latchesClear hb (hinit rfl)).2.1

/-- The timer latch stays 0x00, but for a write to the timer (10_state.md R27). -/
theorem CommandEffect.timer_latch_clear {s : State} {i : Instr} {b : BusState} (h : CommandEffect s i b)
    (hwrite : ∀ a v, i ≠ .wrTimer a v) (hinit : i = .init → b.status = .running) (hl : s.bus.timer.latch = 0x00) :
    b.timer.latch = 0x00 := by
  cases h with
  | read => exact hl
  | write a v _ hw =>
    cases hw with
    | timer hr => exact absurd (decodeWrite_of_timer hr v) (hwrite a v)
    | joyp | ifReg | ie | hram | elsewhere => exact hl
  | adv => rfl
  | init _ hb => exact (initBus_latchesClear hb (hinit rfl)).2.2

/-- A request in the input controller's or the timer's latch stays there through every command but ADVANCE and INIT. -/
theorem CommandEffect.keeps_requests {s : State} {i : Instr} {b : BusState} (h : CommandEffect s i b)
    (hadv : ∀ c, i ≠ .adv c) (hinit : i ≠ .init) : s.bus.input.latch &&& b.input.latch = s.bus.input.latch ∧
      s.bus.timer.latch &&& b.timer.latch = s.bus.timer.latch := by
  cases h with
  | read => exact ⟨BitVec.and_self, BitVec.and_self⟩
  | write a v _ hw =>
    cases hw with
    | joyp => exact ⟨InputState.write_keeps_requests .., BitVec.and_self⟩
    | timer => exact ⟨BitVec.and_self, TimerState.write_keeps_requests ..⟩
    | ifReg | ie | hram | elsewhere => exact ⟨BitVec.and_self, BitVec.and_self⟩
  | adv c => exact absurd rfl (hadv c)
  | init => exact absurd rfl hinit

/-- ADVANCE leaves the orchestrator's bus and nothing else. -/
theorem CommandEffect.bus_of_adv {s : State} {c : Cycles} {b : BusState} (h : CommandEffect s (.adv c) b) :
    b = advanceBus s.bus c := by
  generalize hi : Instr.adv c = i at h
  cases h with
  | read a => exact absurd hi.symm (decodeRead_ne_adv a c)
  | write a v => exact absurd hi.symm (decodeWrite_ne_adv a v c)
  | adv => cases hi; rfl
  | init => cases hi

/-! ### The commands on an accepting state -/

/-- ADV completes in every accepting state (45_advance.md R150, R158). -/
theorem exec_adv {s : State} (h : s.accepting) (c : Cycles) :
    exec (.adv c) s = .next (s.respond (advanceBus s.bus c) .none) :=
  command_accepting h fun b => .done (advanceBus b c, .none)

/-- WR.JOYP completes in every accepting state (41_byte_write.md R107). -/
theorem exec_wrJoyp {s : State} (h : s.accepting) (v : Byte) : exec (.wrJoyp v) s =
    .next (s.respond { s.bus with input := s.bus.input.write Config.joypAddr v } .none) :=
  writeCommand_done (wr := fun b => writeJoyp b v) h rfl

/-- WR.TIMER completes in every accepting state (R109). -/
theorem exec_wrTimer {s : State} (h : s.accepting) (a : Addr) (v : Byte) : exec (.wrTimer a v) s =
    .next (s.respond { s.bus with timer := s.bus.timer.write a v } .none) :=
  writeCommand_done (wr := fun b => writeTimer b a v) h rfl

/-- A command that keeps the status leaves an accepting state. -/
theorem State.accepting_respond {s : State} (h : s.accepting) {b : BusState} (hb : b.status = s.bus.status)
    (r : Response) : (s.respond b r).accepting :=
  ⟨hb.trans h.1, Nat.succ_ne_zero _⟩

end Machine
end Sys2Proof

namespace Sys2Proof.Proofs
open Sys2Proof Sys2Proof.Machine

/-- Settles O36: ADV is the orchestrator's bus, and each device in it is a function of that device and the cycles. -/
theorem advanceOfADeviceDependsOnItAlone : Obligations.AdvanceOfADeviceDependsOnItAlone := by
  unfold Obligations.AdvanceOfADeviceDependsOnItAlone
  intro s s' t t' c hs hs' ht ht'
  cases (exec_adv hs c).symm.trans ht
  cases (exec_adv hs' c).symm.trans ht'
  simp only [State.respond_bus, advanceBus_video, advanceBus_input, advanceBus_timer]
  exact ⟨fun h => by rw [h], fun h => by rw [h], fun h => by rw [h]⟩

/-- Settles O49, from the case list of a step: a step that takes a command is no idle one. -/
theorem everyCommandMovesThePositionByOne : Obligations.EveryCommandMovesThePositionByOne := by
  unfold Obligations.EveryCommandMovesThePositionByOne
  intro s t w rest hp h
  obtain rfl | ⟨w', rest', hp', hpending, hpos, htable, _⟩ := step_bus_cases h
  · exact absurd h (step_ne_self_of_pending hp)
  · cases hp.symm.trans hp'
    exact ⟨hpos, hpending, htable⟩

/-- Settles O50, from the effects of a command. -/
theorem onlyTheseCommandsChangeIfAndIe : Obligations.OnlyTheseCommandsChangeIfAndIe := by
  unfold Obligations.OnlyTheseCommandsChangeIfAndIe
  intro s t w rest i hp hd h
  have he := step_effect hp hd h
  exact ⟨he.keeps_ifReg, he.keeps_ieReg⟩

/-- Settles O51, from the effects of a command. -/
theorem theLastHramByteIsNeverWritten : Obligations.TheLastHramByteIsNeverWritten := by
  unfold Obligations.TheLastHramByteIsNeverWritten
  intro s t w rest i hp hd hinit h
  exact (step_effect hp hd h).keeps_last_hram_byte hinit

/-- Settles O52, from the effects of a command and the two ends of INIT. -/
theorem latchesAreZeroBetweenCommands : Obligations.LatchesAreZeroBetweenCommands := by
  unfold Obligations.LatchesAreZeroBetweenCommands
  intro s t w rest i hp hd h hclear
  obtain ⟨hvideo, hinput, htimer⟩ := hclear
  have he := step_effect hp hd h
  exact ⟨he.video_latch_clear hvideo, fun hw hi => he.input_latch_clear hw hi hinput,
    fun hw hi => he.timer_latch_clear hw hi htimer⟩

/-- Settles O54: the write leaves an accepting state, in which ADV merges the latch. -/
theorem writeRequestsReachIfAtTheNextAdvance : Obligations.WriteRequestsReachIfAtTheNextAdvance := by
  unfold Obligations.WriteRequestsReachIfAtTheNextAdvance
  intro s v c hs
  constructor
  · have hnext := State.accepting_respond hs (b := { s.bus with input := s.bus.input.write Config.joypAddr v }) rfl .none
    exact ⟨_, _, exec_wrJoyp hs v, exec_adv hnext c, advanceBus_merges_input .., rfl⟩
  · intro a _
    have hnext := State.accepting_respond hs (b := { s.bus with timer := s.bus.timer.write a v }) rfl .none
    exact ⟨_, _, exec_wrTimer hs a v, exec_adv hnext c, advanceBus_merges_timer .., rfl⟩

/-- Settles O56: every command keeps the latches' requests, and ADVANCE merges them into IF. -/
theorem noRequestIsLost : Obligations.NoRequestIsLost := by
  unfold Obligations.NoRequestIsLost
  intro s t w rest i hp hd hinit h
  have he := step_effect hp hd h
  refine ⟨fun hadv => he.keeps_requests hadv hinit, ?_⟩
  rintro c rfl
  rw [he.bus_of_adv]
  exact ⟨advanceBus_merges_input .., advanceBus_merges_timer ..⟩

end Sys2Proof.Proofs
end

section
/-! PROOFS. The memory map of spec/20_memory.md: the region of an address read off the table, where an access to a storage
window reaches, reads repeated, writes ignored, and a run of safe commands to the stream's end.
-/
namespace Sys2Proof

/-! ### The region of an address -/

/-- The table has no gap (20_memory.md R40). -/
theorem exists_row_covering (a : Addr) : ∃ r ∈ regionTable, r.first.toNat ≤ a.toNat ∧ a.toNat ≤ r.last.toNat := by
  have h := addr_toNat_lt a
  simp only [regionTable, List.cons_append, List.nil_append, List.mem_cons, exists_eq_or_imp, List.not_mem_nil,
    false_and, exists_false, Config.joypAddr, Config.ifAddr, Config.lyAddr, Config.dmaReg, Config.ieAddr,
    BitVec.reduceToNat]
  omega

/-- The region of an address is that of the rows that cover it: one has it, and no other row covers it (R40). -/
theorem region_eq_iff {a : Addr} {r : Region} :
    region a = r ↔ ∃ row ∈ regionTable, row.region = r ∧ row.first.toNat ≤ a.toNat ∧ a.toNat ≤ row.last.toNat := by
  constructor
  · rintro rfl
    obtain ⟨row, hrow, hfirst, hlast⟩ := exists_row_covering a
    exact ⟨row, hrow, (region_of_row row hrow hfirst hlast).symm, hfirst, hlast⟩
  · rintro ⟨row, hrow, rfl, hfirst, hlast⟩
    exact region_of_row row hrow hfirst hlast

/-- The three intervals of UNMAPPED (R40). -/
theorem region_eq_unmapped {a : Addr} (h : (0xFEA0 ≤ a.toNat ∧ a.toNat ≤ 0xFEFF) ∨ a.toNat = 0xFF03 ∨
    (0xFF08 ≤ a.toNat ∧ a.toNat ≤ 0xFF0E)) : region a = .unmapped := by
  obtain ⟨h1, h2⟩ | h | ⟨h1, h2⟩ := h
  · exact region_of_row ⟨0xFEA0, 0xFEFF, .unmapped⟩ (by decide) h1 h2
  · exact region_of_row ⟨0xFF03, 0xFF03, .unmapped⟩ (by decide) h.ge h.le
  · exact region_of_row ⟨0xFF08, 0xFF0E, .unmapped⟩ (by decide) h1 h2

/-- The address 0x2000 below an ECHO address is in WRAM, and has the same index (20_memory.md R46). -/
theorem echo_alias {a : Addr} (h1 : 0xE000 ≤ a.toNat) (h2 : a.toNat ≤ 0xFDFF) :
    region (a - 0x2000) = .wram ∧ wramIndex (a - 0x2000) = wramIndex a := by
  have hsub : (a - 0x2000).toNat = a.toNat - 0x2000 :=
    BitVec.toNat_sub_of_le (BitVec.le_def.2 (Nat.le_trans (by decide) h1))
  have hlo : 0xC000 ≤ (a - 0x2000).toNat := by rw [hsub]; omega
  have hhi : (a - 0x2000).toNat ≤ 0xDFFF := by rw [hsub]; omega
  refine ⟨region_of_row ⟨0xC000, 0xDFFF, .wram⟩ (by decide) hlo hhi, ?_⟩
  rw [wramIndex_eq, wramIndex_eq, hsub]
  omega

/-! ### The rows of an address -/

theorem decodeWrite_of_unmapped {a : Addr} (h : region a = .unmapped) (v : Byte) :
    decodeWrite a v = .wrUnmapped a v := by
  simp only [decodeWrite, h]

theorem decodeWrite_of_serial {a : Addr} (h : region a = .serial) (v : Byte) : decodeWrite a v = .wrSerial a v := by
  simp only [decodeWrite, h]

theorem decodeWrite_of_sound {a : Addr} (h : region a = .sound) (v : Byte) : decodeWrite a v = .wrSound a v := by
  simp only [decodeWrite, h]

theorem decodeWrite_of_cgb {a : Addr} (h : region a = .cgb) (v : Byte) : decodeWrite a v = .wrCgb a v := by
  simp only [decodeWrite, h]

/-- Only the READ rows of SERIAL and CGB are fatal (20_memory.md R43). -/
theorem decodeRead_of_fatalOnRead {a : Addr} (h : (region a).fatalOnRead = true) :
    decodeRead a = .rdSerial a ∨ decodeRead a = .rdCgb a := by
  unfold decodeRead
  cases hr : region a <;> simp [hr, Region.fatalOnRead] at h ⊢

namespace Machine

/-! ### The accesses to a storage window, by region -/

theorem memRead_of_vram (b : BusState) {a : Addr} (h : region a = .vram) :
    memRead b a = .done (Memory.readByte b.video.vram (vramIndex a)) :=
  memRead_of_peek (by rw [peek_by_region, h])

theorem memRead_of_wram_or_echo (b : BusState) {a : Addr} (h : region a = .wram ∨ region a = .echo) :
    memRead b a = .done (Memory.readByte b.wram (wramIndex a)) := by
  obtain h | h := h <;> exact memRead_of_peek (by rw [peek_by_region, h])

theorem memRead_of_oam (b : BusState) {a : Addr} (h : region a = .oam) :
    memRead b a = .done (Memory.readByte b.video.oam (oamIndex a)) :=
  memRead_of_peek (by rw [peek_by_region, h])

theorem memRead_of_hram (b : BusState) {a : Addr} (h : region a = .hram) :
    memRead b a = .done (Memory.readByte b.hram (hramIndex a)) :=
  memRead_of_peek (by rw [peek_by_region, h])

theorem memWrite_of_vram (b : BusState) {a : Addr} (v : Byte) (h : region a = .vram) : memWrite b a v =
    .done { b with video := { b.video with vram := Memory.writeByte b.video.vram (vramIndex a) v } } := by
  simp only [memWrite, h, writeVram, writeVideoRam]

theorem memWrite_of_wram_or_echo (b : BusState) {a : Addr} (v : Byte) (h : region a = .wram ∨ region a = .echo) :
    memWrite b a v = .done { b with wram := Memory.writeByte b.wram (wramIndex a) v } := by
  obtain h | h := h <;> simp only [memWrite, h, writeWram, writeEcho]

theorem memWrite_of_oam (b : BusState) {a : Addr} (v : Byte) (h : region a = .oam) : memWrite b a v =
    .done { b with video := { b.video with oam := Memory.writeByte b.video.oam (oamIndex a) v } } := by
  simp only [memWrite, h, writeOam, writeSpriteMemory, oamIndex_lt_of_region h, if_true]

theorem memWrite_of_hram (b : BusState) {a : Addr} (v : Byte) (h : region a = .hram) :
    memWrite b a v = .done { b with hram := Memory.writeByte b.hram (hramIndex a) v } := by
  simp only [memWrite, h, writeHram]

/-! ### Commands on an accepting state -/

/-- A READ outside SERIAL and CGB completes with the byte the bus read gives, and changes no bus state (R43, R55). -/
theorem exec_decodeRead_done {s : State} (hs : s.accepting) {a : Addr} {v : Byte} (h : memRead s.bus a = .done v) :
    exec (decodeRead a) s = .next (s.respond s.bus (.byte v)) :=
  (exec_decodeRead a s).trans (readCommand_done hs h)

/-- A WRITE row whose access hands the bus back as it is completes and changes nothing (R44). -/
theorem exec_of_ignored_write {s : State} (hs : s.accepting) {i : Instr}
    (hi : exec i s = writeCommand s fun b => .done b) :
    ∃ t, exec i s = .next t ∧ t.bus = s.bus ∧ t.pending = s.pending :=
  ⟨s.respond s.bus .none, hi.trans (writeCommand_done hs rfl), rfl, rfl⟩

/-- The command of a safe word completes in every accepting state, and keeps the status (60_exceptions.md R171). -/
theorem exec_of_safeWord {s : State} (hs : s.accepting) {w : CmdWord} (hw : SafeWord w) :
    ∃ i b r, decode w = .ok i ∧ exec i s = .next (s.respond b r) ∧ b.status = s.bus.status := by
  obtain ⟨i, hd, hinit, hserial, hcgb, hdma⟩ := hw
  obtain rfl | rfl | rfl | rfl := decode_cases hd
  · have hsafe : (region (addrField w)).fatalOnRead = false := by
      by_contra hf
      obtain h | h := decodeRead_of_fatalOnRead (Bool.eq_true_of_not_eq_false hf)
      · exact hserial _ h
      · exact hcgb _ h
    obtain ⟨v, hv⟩ := memRead_done s.bus hsafe
    exact ⟨_, _, _, hd, exec_decodeRead_done hs hv, rfl⟩
  · have hsafe : addrField w ≠ Config.dmaReg ∨ dataField w ≠ 0xFF#8 := by
      by_contra hf
      obtain ⟨ha, hv⟩ : addrField w = Config.dmaReg ∧ dataField w = 0xFF#8 := by simpa [not_or] using hf
      exact hdma (by rw [ha, hv]; rfl)
    obtain ⟨b, hb, hstatus⟩ := memWrite_done s.bus hsafe
    exact ⟨_, _, _, hd, (exec_decodeWrite ..).trans (writeCommand_done hs hb), hstatus⟩
  · exact ⟨_, _, _, hd, exec_adv hs _, rfl⟩
  · exact absurd rfl hinit

/-! ### Steps and runs of a safe stream -/

/-- A running machine's step runs the next word's command on the rest of the stream (R60). -/
theorem step_of_pending {s : State} (hr : s.bus.status = .running) {w : CmdWord} {rest : List CmdWord}
    (hp : s.pending = w :: rest) {i : Instr} (hd : decode w = .ok i) :
    step s = exec i { s with pending := rest } := by
  simp only [step, fetchCommand, hr, hp, hd]

/-- A step of a safely loaded state takes one word, and leaves a safely loaded state. -/
theorem step_of_safelyLoaded {s : State} (h : s.safelyLoaded) {w : CmdWord} {rest : List CmdWord}
    (hp : s.pending = w :: rest) :
    ∃ t, step s = .next t ∧ t.safelyLoaded ∧ t.pending = rest ∧ t.pos = s.pos + 1 := by
  obtain ⟨hs, hsafe⟩ := h
  rw [hp] at hsafe
  obtain ⟨hw, hrest⟩ := List.forall_mem_cons.1 hsafe
  have hs' : State.accepting { s with pending := rest } := hs
  obtain ⟨i, b, r, hd, he, hb⟩ := exec_of_safeWord hs' hw
  exact ⟨_, (step_of_pending hs.1 hp hd).trans he, ⟨State.accepting_respond hs' hb r, hrest⟩, rfl, rfl⟩

/-- A run of a safely loaded state takes every word, one a step. -/
theorem run_of_safelyLoaded (ws : List CmdWord) {s : State} (h : s.safelyLoaded) (hp : s.pending = ws) :
    ∃ t : State, Sys2Proof.core.run ws.length s = .next t ∧ t.succeeded ∧ t.pos = s.pos + ws.length := by
  induction ws generalizing s with
  | nil => exact ⟨s, rfl, ⟨hp, h.1.1⟩, rfl⟩
  | cons w rest ih =>
    obtain ⟨u, hstep, hu, hrest, hpos⟩ := step_of_safelyLoaded h hp
    obtain ⟨t, hrun, hdone, htpos⟩ := ih hu hrest
    refine ⟨t, (run_succ hstep rest.length).trans hrun, hdone, ?_⟩
    rw [htpos, hpos, List.length_cons]
    omega

end Machine
end Sys2Proof

namespace Sys2Proof.Proofs
open Sys2Proof Sys2Proof.Machine

/-- Settles O6: the rows of R40's table, read off for each region. -/
theorem everyAddressHasItsOneRegion : Obligations.EveryAddressHasItsOneRegion := by
  unfold Obligations.EveryAddressHasItsOneRegion
  intro a
  simp only [region_eq_iff, regionTable, List.cons_append, List.nil_append, List.mem_cons, List.not_mem_nil,
    exists_eq_or_imp, exists_eq_left, reduceCtorEq, false_and, true_and, false_or, or_false, Config.joypAddr,
    Config.ifAddr, Config.lyAddr, Config.dmaReg, Config.ieAddr, BitVec.reduceToNat]
  and_intros <;> omega

/-- Settles O7: the window's region, and its index as the offset from the window's start. -/
theorem storageAccessesReachTheWindowOffset : Obligations.StorageAccessesReachTheWindowOffset := by
  unfold Obligations.StorageAccessesReachTheWindowOffset
  intro b a v
  refine ⟨fun ⟨h1, h2⟩ => ?vram, fun ⟨h1, h2⟩ => ?wram, fun ⟨h1, h2⟩ => ?echo, fun ⟨h1, h2⟩ => ?oam,
    fun ⟨h1, h2⟩ => ?hram⟩
  case vram =>
    have hr := region_of_row ⟨0x8000, 0x9FFF, .vram⟩ (by decide) h1 h2
    have hi : vramIndex a = a.toNat - 0x8000 := by rw [vramIndex_eq]; omega
    rw [← hi]
    exact ⟨memRead_of_vram b hr, memWrite_of_vram b v hr⟩
  case wram =>
    have hr := region_of_row ⟨0xC000, 0xDFFF, .wram⟩ (by decide) h1 h2
    have hi : wramIndex a = a.toNat - 0xC000 := by rw [wramIndex_eq]; omega
    rw [← hi]
    exact ⟨memRead_of_wram_or_echo b (.inl hr), memWrite_of_wram_or_echo b v (.inl hr)⟩
  case echo =>
    have hr := region_of_row ⟨0xE000, 0xFDFF, .echo⟩ (by decide) h1 h2
    have hi : wramIndex a = a.toNat - 0xE000 := by rw [wramIndex_eq]; omega
    obtain ⟨hr', hi'⟩ := echo_alias h1 h2
    rw [memRead_of_wram_or_echo b (.inl hr'), memWrite_of_wram_or_echo b v (.inl hr'), hi', ← hi]
    have hread := memRead_of_wram_or_echo b (.inr hr)
    have hwrite := memWrite_of_wram_or_echo b v (.inr hr)
    exact ⟨hread, hwrite, hread, hwrite⟩
  case oam =>
    have hr := region_of_row ⟨0xFE00, 0xFE9F, .oam⟩ (by decide) h1 h2
    have hi : oamIndex a = a.toNat - 0xFE00 := by rw [oamIndex_eq]; omega
    rw [← hi]
    exact ⟨memRead_of_oam b hr, memWrite_of_oam b v hr⟩
  case hram =>
    have hr := region_of_row ⟨0xFF80, 0xFFFE, .hram⟩ (by decide) h1 h2
    have hi : hramIndex a = a.toNat - 0xFF80 := by rw [hramIndex_eq]; omega
    rw [← hi]
    exact ⟨memRead_of_hram b hr, memWrite_of_hram b v hr⟩

/-- Settles O17: the first READ leaves the bus as it was, and the state accepting. -/
theorem readingTwiceGivesTheSameByte : Obligations.ReadingTwiceGivesTheSameByte := by
  unfold Obligations.ReadingTwiceGivesTheSameByte
  intro s a hs ha
  obtain ⟨v, hv⟩ := memRead_done s.bus ha
  have hs' : (s.respond s.bus (.byte v)).accepting := State.accepting_respond hs rfl _
  exact ⟨_, _, exec_decodeRead_done hs hv, exec_decodeRead_done hs' hv, rfl, rfl⟩

/-- Settles O22: each row's access hands the bus back as it is. -/
theorem ignoredWritesChangeNothing : Obligations.IgnoredWritesChangeNothing := by
  unfold Obligations.IgnoredWritesChangeNothing
  intro s a v hs
  refine ⟨fun h => ?unmapped, fun ⟨h1, h2⟩ => ?serial, fun ⟨h1, h2⟩ => ?sound, fun ⟨h1, h2⟩ => ?cgb⟩
  case unmapped => exact ⟨decodeWrite_of_unmapped (region_eq_unmapped h) v, exec_of_ignored_write hs rfl⟩
  case serial =>
    have hr := region_of_row ⟨0xFF01, 0xFF02, .serial⟩ (by decide) h1 h2
    exact ⟨decodeWrite_of_serial hr v, exec_of_ignored_write hs rfl⟩
  case sound =>
    have hr := region_of_row ⟨0xFF10, 0xFF3F, .sound⟩ (by decide) h1 h2
    exact ⟨decodeWrite_of_sound hr v, exec_of_ignored_write hs rfl⟩
  case cgb =>
    have hr := region_of_row ⟨0xFF4C, 0xFF7F, .cgb⟩ (by decide) h1 h2
    exact ⟨decodeWrite_of_cgb hr v, exec_of_ignored_write hs rfl⟩

/-- Settles O53, by induction on the pending words: a step takes one and leaves a safely loaded state. -/
theorem safeStreamsRunToTheEnd : Obligations.SafeStreamsRunToTheEnd := by
  unfold Obligations.SafeStreamsRunToTheEnd
  intro s h
  exact run_of_safelyLoaded s.pending h rfl

end Sys2Proof.Proofs
end

section
/-! PROOFS. The command words of spec/30_encoding.md: a word as its four fields, the rows that READ and WRITE decode to, the
words with a meaning by their fields, the opcode table as the decoder's, and the words a running machine refuses.
-/
namespace Sys2Proof

/-! ### A command word is its four fields (30_encoding.md R65) -/

@[simp] theorem opField_commandWord (op : BitVec 2) (a : Addr) (d : Byte) : opField (commandWord op a d) = op :=
  (Laws.fields_commandWord op a d).1

@[simp] theorem rsvField_commandWord (op : BitVec 2) (a : Addr) (d : Byte) : rsvField (commandWord op a d) = 0 :=
  (Laws.fields_commandWord op a d).2.1

@[simp] theorem addrField_commandWord (op : BitVec 2) (a : Addr) (d : Byte) : addrField (commandWord op a d) = a :=
  (Laws.fields_commandWord op a d).2.2.1

@[simp] theorem dataField_commandWord (op : BitVec 2) (a : Addr) (d : Byte) : dataField (commandWord op a d) = d :=
  (Laws.fields_commandWord op a d).2.2.2

theorem opField_toNat (w : CmdWord) : (opField w).toNat = w.toNat / 2 ^ 30 := by
  have hw := w.isLt
  simp only [opField, BitVec.extractLsb'_toNat, Nat.shiftRight_eq_div_pow]
  omega

theorem rsvField_toNat (w : CmdWord) : (rsvField w).toNat = w.toNat / 2 ^ 24 % 64 := by
  simp only [rsvField, BitVec.extractLsb'_toNat, Nat.shiftRight_eq_div_pow, Nat.reducePow]

theorem addrField_toNat (w : CmdWord) : (addrField w).toNat = w.toNat / 256 % 65536 := by
  simp only [addrField, BitVec.extractLsb'_toNat, Nat.shiftRight_eq_div_pow, Config.dataW, Config.addrW, Nat.reducePow]

theorem dataField_toNat (w : CmdWord) : (dataField w).toNat = w.toNat % 256 := by
  simp only [dataField, BitVec.extractLsb'_toNat, Nat.shiftRight_zero, Config.dataW, Nat.reducePow]

/-- The four fields cover the word's 32 bits. -/
theorem word_eq_iff_fields {w w' : CmdWord} : w = w' ↔ rsvField w = rsvField w' ∧ opField w = opField w' ∧
    addrField w = addrField w' ∧ dataField w = dataField w' := by
  refine ⟨by rintro rfl; exact ⟨rfl, rfl, rfl, rfl⟩, fun ⟨hrsv, hop, haddr, hdata⟩ => BitVec.eq_of_toNat_eq ?_⟩
  replace hrsv := congrArg BitVec.toNat hrsv
  replace hop := congrArg BitVec.toNat hop
  replace haddr := congrArg BitVec.toNat haddr
  replace hdata := congrArg BitVec.toNat hdata
  simp only [rsvField_toNat, opField_toNat, addrField_toNat, dataField_toNat] at hrsv hop haddr hdata
  omega

/-- A word with RSV = 0 is the one that its other fields make. -/
theorem commandWord_fields {w : CmdWord} (h : rsvField w = 0) :
    commandWord (opField w) (addrField w) (dataField w) = w :=
  word_eq_iff_fields.2 ⟨by rw [rsvField_commandWord, h], by simp, by simp, by simp⟩

/-- The top byte of a word is OP over RSV. -/
theorem fields_of_top_byte {w : CmdWord} {op : BitVec 2} (h : w.toNat / 2 ^ 24 = op.toNat * 64) :
    rsvField w = 0 ∧ opField w = op := by
  constructor <;> apply BitVec.eq_of_toNat_eq
  · rw [rsvField_toNat, h, Nat.mul_mod_left]
    rfl
  · rw [opField_toNat]
    omega

/-! ### The rows that an address decodes to (R69, R70) -/

/-- A region of one address has no other. -/
theorem eq_of_region {a x : Addr} {r : Region} (h : region a = r)
    (hrow : ∀ row ∈ regionTable, row.region = r → row.first = x ∧ row.last = x) : a = x := by
  obtain ⟨row, hmem, hr, h1, h2⟩ := region_eq_iff.1 h
  obtain ⟨hfirst, hlast⟩ := hrow row hmem hr
  rw [hfirst] at h1
  rw [hlast] at h2
  exact BitVec.eq_of_toNat_eq (Nat.le_antisymm h2 h1)

theorem eq_joypAddr_of_region {a : Addr} (h : region a = .joyp) : a = Config.joypAddr := eq_of_region h (by decide)
theorem eq_ifAddr_of_region {a : Addr} (h : region a = .ifReg) : a = Config.ifAddr := eq_of_region h (by decide)
theorem eq_lyAddr_of_region {a : Addr} (h : region a = .ly) : a = Config.lyAddr := eq_of_region h (by decide)
theorem eq_dmaReg_of_region {a : Addr} (h : region a = .dma) : a = Config.dmaReg := eq_of_region h (by decide)
theorem eq_ieAddr_of_region {a : Addr} (h : region a = .ie) : a = Config.ieAddr := eq_of_region h (by decide)

/-- The word of an address's READ row is the READ of that address, also where the row carries no address. -/
theorem encode_decodeRead (a : Addr) : encode (decodeRead a) = [readWordOf a] := by
  unfold decodeRead
  cases hr : region a
  case joyp => rw [eq_joypAddr_of_region hr]; rfl
  case ifReg => rw [eq_ifAddr_of_region hr]; rfl
  case ly => rw [eq_lyAddr_of_region hr]; rfl
  case dma => rw [eq_dmaReg_of_region hr]; rfl
  case ie => rw [eq_ieAddr_of_region hr]; rfl
  all_goals rfl

/-- The word of an address's WRITE row is the WRITE to that address, also where the row carries no address. -/
theorem encode_decodeWrite (a : Addr) (v : Byte) : encode (decodeWrite a v) = [writeWordOf a v] := by
  unfold decodeWrite
  cases hr : region a
  case joyp => rw [eq_joypAddr_of_region hr]; rfl
  case ifReg => rw [eq_ifAddr_of_region hr]; rfl
  case ly => rw [eq_lyAddr_of_region hr]; rfl
  case dma => rw [eq_dmaReg_of_region hr]; rfl
  case ie => rw [eq_ieAddr_of_region hr]; rfl
  all_goals rfl

theorem decodeRead_wf_command (a : Addr) : (decodeRead a).wf = true ∧ (decodeRead a).isCommand = true := by
  unfold decodeRead
  cases hr : region a <;> simp [Instr.wf, Instr.isCommand, Region.isCart, hr]

theorem decodeWrite_wf_command (a : Addr) (v : Byte) :
    (decodeWrite a v).wf = true ∧ (decodeWrite a v).isCommand = true := by
  unfold decodeWrite
  cases hr : region a <;> simp [Instr.wf, Instr.isCommand, Region.isCart, hr]

theorem Region.isCart_iff {r : Region} : r.isCart = true ↔ r = .cartRom ∨ r = .cartRam := by
  cases r <;> simp [Region.isCart]

/-- A well-formed command is the READ or WRITE row of some address, an ADVANCE or INIT. -/
theorem command_cases {i : Instr} (hwf : i.wf = true) (hcmd : i.isCommand = true) :
    (∃ a, i = decodeRead a) ∨ (∃ a v, i = decodeWrite a v) ∨ (∃ c, i = .adv c) ∨ i = .init := by
  cases i
  case rdCart a =>
    obtain hr | hr := Region.isCart_iff.1 hwf <;> exact .inl ⟨a, by simp only [decodeRead, hr]⟩
  case rdVram a | rdWram a | rdEcho a | rdOam a | rdUnmapped a | rdSerial a | rdTimer a | rdSound a | rdLcdreg a |
      rdCgb a | rdHram a =>
    exact .inl ⟨a, by simp only [decodeRead, eq_of_beq hwf]⟩
  case rdJoyp => exact .inl ⟨Config.joypAddr, rfl⟩
  case rdIf => exact .inl ⟨Config.ifAddr, rfl⟩
  case rdLy => exact .inl ⟨Config.lyAddr, rfl⟩
  case rdDma => exact .inl ⟨Config.dmaReg, rfl⟩
  case rdIe => exact .inl ⟨Config.ieAddr, rfl⟩
  case wrCart a v =>
    obtain hr | hr := Region.isCart_iff.1 hwf <;> exact .inr (.inl ⟨a, v, by simp only [decodeWrite, hr]⟩)
  case wrVram a v | wrWram a v | wrEcho a v | wrOam a v | wrUnmapped a v | wrSerial a v | wrTimer a v | wrSound a v |
      wrLcdreg a v | wrCgb a v | wrHram a v =>
    exact .inr (.inl ⟨a, v, by simp only [decodeWrite, eq_of_beq hwf]⟩)
  case wrJoyp v => exact .inr (.inl ⟨Config.joypAddr, v, rfl⟩)
  case wrIf v => exact .inr (.inl ⟨Config.ifAddr, v, rfl⟩)
  case wrLy v => exact .inr (.inl ⟨Config.lyAddr, v, rfl⟩)
  case wrDma v => exact .inr (.inl ⟨Config.dmaReg, v, rfl⟩)
  case wrIe v => exact .inr (.inl ⟨Config.ieAddr, v, rfl⟩)
  case adv c => exact .inr (.inr (.inl ⟨c, rfl⟩))
  case init => exact .inr (.inr (.inr rfl))
  case rdw | wrw | dma => cases hcmd

/-! ### The decoder, over the fields (R69) -/

/-- OP has no value besides the four of R66. -/
theorem op_cases (op : BitVec 2) : op = opRead ∨ op = opWrite ∨ op = opAdvance ∨ op = opInit := by
  revert op
  decide

theorem decode_of_reserved {w : CmdWord} (hrsv : rsvField w ≠ 0) : decode w = .error .reservedBits := by
  rw [decode, if_pos hrsv]

theorem decode_of_read {w : CmdWord} (hrsv : rsvField w = 0) (hop : opField w = opRead) : decode w =
    if dataField w ≠ 0 then .error .readDataNonZero else .ok (decodeRead (addrField w)) := by
  rw [decode, if_neg (not_not_intro hrsv), if_pos hop]

theorem decode_of_write {w : CmdWord} (hrsv : rsvField w = 0) (hop : opField w = opWrite) :
    decode w = .ok (decodeWrite (addrField w) (dataField w)) := by
  rw [decode, if_neg (not_not_intro hrsv), if_neg (by rw [hop]; decide), if_pos hop]

theorem decode_of_advance {w : CmdWord} (hrsv : rsvField w = 0) (hop : opField w = opAdvance) : decode w =
    if addrField w ≠ 0 then .error .advanceAddrNonZero else .ok (.adv (dataField w)) := by
  rw [decode, if_neg (not_not_intro hrsv), if_neg (by rw [hop]; decide), if_neg (by rw [hop]; decide), if_pos hop]

theorem decode_of_init {w : CmdWord} (hrsv : rsvField w = 0) (hop : opField w = opInit) : decode w =
    if addrField w ≠ 0 ∨ dataField w ≠ 0 then .error .initOperandsNonZero else .ok .init := by
  rw [decode, if_neg (not_not_intro hrsv), if_neg (by rw [hop]; decide), if_neg (by rw [hop]; decide),
    if_neg (by rw [hop]; decide)]

/-- The words with a meaning, and the command each means: RSV is 0, and so is each field that OP does not use. -/
inductive DecodesTo (w : CmdWord) : Instr → Prop
  | read (hrsv : rsvField w = 0) (hop : opField w = opRead) (hdata : dataField w = 0) :
      DecodesTo w (decodeRead (addrField w))
  | write (hrsv : rsvField w = 0) (hop : opField w = opWrite) : DecodesTo w (decodeWrite (addrField w) (dataField w))
  | advance (hrsv : rsvField w = 0) (hop : opField w = opAdvance) (haddr : addrField w = 0) :
      DecodesTo w (.adv (dataField w))
  | init (hrsv : rsvField w = 0) (hop : opField w = opInit) (haddr : addrField w = 0) (hdata : dataField w = 0) :
      DecodesTo w .init

theorem DecodesTo.decode_eq {w : CmdWord} {i : Instr} (h : DecodesTo w i) : decode w = .ok i := by
  cases h with
  | read hrsv hop hdata => rw [decode_of_read hrsv hop, if_neg (not_not_intro hdata)]
  | write hrsv hop => exact decode_of_write hrsv hop
  | advance hrsv hop haddr => rw [decode_of_advance hrsv hop, if_neg (not_not_intro haddr)]
  | init hrsv hop haddr hdata =>
    rw [decode_of_init hrsv hop, if_neg (not_or_intro (not_not_intro haddr) (not_not_intro hdata))]

theorem decodesTo_of_decode {w : CmdWord} {i : Instr} (h : decode w = .ok i) : DecodesTo w i := by
  by_cases hrsv : rsvField w = 0
  swap
  · rw [decode_of_reserved hrsv] at h
    cases h
  obtain hop | hop | hop | hop := op_cases (opField w)
  · rw [decode_of_read hrsv hop] at h
    split_ifs at h with hdata
    cases h
    exact .read hrsv hop (not_not.1 hdata)
  · rw [decode_of_write hrsv hop] at h
    cases h
    exact .write hrsv hop
  · rw [decode_of_advance hrsv hop] at h
    split_ifs at h with haddr
    cases h
    exact .advance hrsv hop (not_not.1 haddr)
  · rw [decode_of_init hrsv hop] at h
    split_ifs at h with hfields
    cases h
    obtain ⟨haddr, hdata⟩ := not_or.1 hfields
    exact .init hrsv hop (not_not.1 haddr) (not_not.1 hdata)

/-- What a word means is a well-formed command, and the word is the one that R65 lays out for it. -/
theorem DecodesTo.wf_command_encode {w : CmdWord} {i : Instr} (h : DecodesTo w i) :
    i.wf = true ∧ i.isCommand = true ∧ encode i = [w] := by
  cases h with
  | read hrsv hop hdata =>
    obtain ⟨hwf, hcmd⟩ := decodeRead_wf_command (addrField w)
    have hw : readWordOf (addrField w) = w := by rw [readWordOf, ← hop, ← hdata, commandWord_fields hrsv]
    exact ⟨hwf, hcmd, by rw [encode_decodeRead, hw]⟩
  | write hrsv hop =>
    obtain ⟨hwf, hcmd⟩ := decodeWrite_wf_command (addrField w) (dataField w)
    have hw : writeWordOf (addrField w) (dataField w) = w := by rw [writeWordOf, ← hop, commandWord_fields hrsv]
    exact ⟨hwf, hcmd, by rw [encode_decodeWrite, hw]⟩
  | advance hrsv hop haddr =>
    have hw : commandWord opAdvance 0 (dataField w) = w := by rw [← hop, ← haddr, commandWord_fields hrsv]
    exact ⟨rfl, rfl, by rw [encode, hw]⟩
  | init hrsv hop haddr hdata =>
    have hw : commandWord opInit 0 0 = w := by
      conv_lhs => rw [← hop, ← haddr, ← hdata]
      exact commandWord_fields hrsv
    exact ⟨rfl, rfl, by rw [encode, hw]⟩

/-- A READ's word decodes to the READ row of its address. -/
theorem decode_readWordOf (a : Addr) : decode (readWordOf a) = .ok (decodeRead a) := by
  rw [readWordOf, decode_of_read (rsvField_commandWord ..) (opField_commandWord ..), addrField_commandWord,
    dataField_commandWord, if_neg (not_not_intro rfl)]

/-- A WRITE's word decodes to the WRITE row of its address. -/
theorem decode_writeWordOf (a : Addr) (v : Byte) : decode (writeWordOf a v) = .ok (decodeWrite a v) := by
  rw [writeWordOf, decode_of_write (rsvField_commandWord ..) (opField_commandWord ..), addrField_commandWord,
    dataField_commandWord]

theorem decode_advanceWord (c : Cycles) : decode (commandWord opAdvance 0 c) = .ok (.adv c) := by
  rw [decode_of_advance (rsvField_commandWord ..) (opField_commandWord ..), addrField_commandWord,
    dataField_commandWord, if_neg (not_not_intro rfl)]

theorem decode_initWord : decode (commandWord opInit 0 0) = .ok .init := by decide

/-- A running machine refuses a malformed next word under the decoder's reason (R73, 60_exceptions.md R176). -/
theorem Machine.step_of_malformed {s : Machine.State} (hr : s.bus.status = .running) {w : CmdWord}
    {rest : List CmdWord} (hp : s.pending = w :: rest) {e : DecodeError} (hd : decode w = .error e) :
    Machine.step s = .refused (.malformed e) := by
  simp only [Machine.step, Machine.fetchCommand, hr, hp, hd]

/-! ### The opcode table (R70, R71) -/

/-- A masked word is compared field by field. -/
theorem and_eq_iff_fields {w mask value : CmdWord} : w &&& mask = value ↔
    rsvField w &&& rsvField mask = rsvField value ∧ opField w &&& opField mask = opField value ∧
    addrField w &&& addrField mask = addrField value ∧ dataField w &&& dataField mask = dataField value := by
  rw [word_eq_iff_fields]
  simp only [rsvField, opField, addrField, dataField, BitVec.extractLsb'_and]

/-- The fixed bits of a READ row (R71). -/
theorem and_readMask_iff {w : CmdWord} :
    w &&& 0xFF0000FF = 0x00000000 ↔ rsvField w = 0 ∧ opField w = opRead ∧ dataField w = 0 := by
  rw [and_eq_iff_fields]
  change rsvField w &&& BitVec.allOnes 6 = 0 ∧ opField w &&& BitVec.allOnes 2 = opRead ∧
    addrField w &&& 0#16 = 0#16 ∧ dataField w &&& BitVec.allOnes 8 = 0 ↔ _
  simp only [BitVec.and_allOnes, BitVec.and_zero, true_and]

/-- The fixed bits of a WRITE row (R71). -/
theorem and_writeMask_iff {w : CmdWord} :
    w &&& 0xFF000000 = 0x40000000 ↔ rsvField w = 0 ∧ opField w = opWrite := by
  rw [and_eq_iff_fields]
  change rsvField w &&& BitVec.allOnes 6 = 0 ∧ opField w &&& BitVec.allOnes 2 = opWrite ∧
    addrField w &&& 0#16 = 0#16 ∧ dataField w &&& 0#8 = 0#8 ↔ _
  simp only [BitVec.and_allOnes, BitVec.and_zero, and_true]

/-- The fixed bits of the ADVANCE row (R71). -/
theorem and_advanceMask_iff {w : CmdWord} :
    w &&& 0xFFFFFF00 = 0x80000000 ↔ rsvField w = 0 ∧ opField w = opAdvance ∧ addrField w = 0 := by
  rw [and_eq_iff_fields]
  change rsvField w &&& BitVec.allOnes 6 = 0 ∧ opField w &&& BitVec.allOnes 2 = opAdvance ∧
    addrField w &&& BitVec.allOnes 16 = 0 ∧ dataField w &&& 0#8 = 0#8 ↔ _
  simp only [BitVec.and_allOnes, BitVec.and_zero, and_true]

/-- The fixed bits of the INIT row (R71). -/
theorem and_initMask_iff {w : CmdWord} :
    w &&& 0xFFFFFFFF = 0xC0000000 ↔ rsvField w = 0 ∧ opField w = opInit ∧ addrField w = 0 ∧ dataField w = 0 := by
  rw [and_eq_iff_fields]
  change rsvField w &&& BitVec.allOnes 6 = 0 ∧ opField w &&& BitVec.allOnes 2 = opInit ∧
    addrField w &&& BitVec.allOnes 16 = 0 ∧ dataField w &&& BitVec.allOnes 8 = 0 ↔ _
  simp only [BitVec.and_allOnes]

/-- An address lies in one of a row's intervals: R71's second test. -/
def OpRow.Covers (r : OpRow) (a : Addr) : Prop := ∃ p ∈ r.ranges, p.1.toNat ≤ a.toNat ∧ a.toNat ≤ p.2.toNat

theorem OpRow.selects_iff {r : OpRow} {w : CmdWord} :
    r.selects w = true ↔ w &&& r.mask = r.value ∧ r.Covers (addrField w) := by
  simp only [OpRow.selects, OpRow.Covers, Bool.and_eq_true, beq_iff_eq, List.any_eq_true, decide_eq_true_eq]

/-- The intervals of some opcode rows, each with its row's mnemonic. -/
def rowIntervals (rows : List OpRow) : List (String × Addr × Addr) :=
  rows.flatMap fun r => r.ranges.map fun p => (r.mnemonic, p)

theorem exists_row_covers_iff {rows : List OpRow} {a : Addr} {m : String} :
    (∃ r ∈ rows, r.Covers a ∧ r.mnemonic = m) ↔
      ∃ p, (m, p) ∈ rowIntervals rows ∧ p.1.toNat ≤ a.toNat ∧ a.toNat ≤ p.2.toNat := by
  simp only [rowIntervals, OpRow.Covers, List.mem_flatMap, List.mem_map, Prod.mk.injEq]
  constructor
  · rintro ⟨r, hr, ⟨p, hp, hcovers⟩, rfl⟩
    exact ⟨p, ⟨r, hr, p, hp, rfl, rfl⟩, hcovers⟩
  · rintro ⟨p, ⟨r, hr, _, hp, hm, rfl⟩, hcovers⟩
    exact ⟨r, hr, ⟨_, hp, hcovers⟩, hm⟩

/-- Rows whose intervals are those of the region table (20_memory.md R40), named by their regions, cover an address by the
row of its region. -/
theorem exists_row_covers_iff_of_perm {rows : List OpRow} {name : Addr → String}
    (hname : ∀ a b, region a = region b → name a = name b)
    (hperm : (rowIntervals rows).Perm (regionTable.map fun row => (name row.first, row.first, row.last)))
    {a : Addr} {m : String} : (∃ r ∈ rows, r.Covers a ∧ r.mnemonic = m) ↔ name a = m := by
  have hregion {row : RegionRow} (hrow : row ∈ regionTable) (h1 : row.first.toNat ≤ a.toNat)
      (h2 : a.toNat ≤ row.last.toNat) : name row.first = name a :=
    hname _ _ ((region_of_row row hrow le_rfl (h1.trans h2)).trans (region_of_row row hrow h1 h2).symm)
  simp only [exists_row_covers_iff, hperm.mem_iff, List.mem_map, Prod.mk.injEq]
  constructor
  · rintro ⟨_, ⟨row, hrow, rfl, rfl⟩, h1, h2⟩
    exact (hregion hrow h1 h2).symm
  · rintro rfl
    obtain ⟨row, hrow, h1, h2⟩ := exists_row_covering a
    exact ⟨_, ⟨row, hrow, hregion hrow h1 h2, rfl⟩, h1, h2⟩

theorem decodeRead_mnemonic_congr (a b : Addr) (h : region a = region b) :
    (decodeRead a).mnemonic = (decodeRead b).mnemonic := by
  unfold decodeRead
  rw [h]
  cases region b <;> rfl

theorem decodeWrite_mnemonic_congr (v v' : Byte) (a b : Addr) (h : region a = region b) :
    (decodeWrite a v).mnemonic = (decodeWrite b v').mnemonic := by
  unfold decodeWrite
  rw [h]
  cases region b <;> rfl

/-- The READ rows' intervals are those of the region table, each under the mnemonic of its region (R70, 20_memory.md
R40). -/
theorem readRows_intervals : (rowIntervals readRows).Perm
    (regionTable.map fun row => ((decodeRead row.first).mnemonic, row.first, row.last)) := by decide

/-- The WRITE rows' intervals are those of the region table, too. -/
theorem writeRows_intervals : (rowIntervals writeRows).Perm
    (regionTable.map fun row => ((decodeWrite row.first 0).mnemonic, row.first, row.last)) := by decide

theorem fixed_bits_of_readRow : ∀ r ∈ readRows, r.mask = 0xFF0000FF ∧ r.value = 0x00000000 := by decide

theorem fixed_bits_of_writeRow : ∀ r ∈ writeRows, r.mask = 0xFF000000 ∧ r.value = 0x40000000 := by decide

/-- Rows with the same fixed bits select a word that has them, by its address. -/
theorem exists_row_selects_iff {rows : List OpRow} {mask value : CmdWord}
    (hfixed : ∀ r ∈ rows, r.mask = mask ∧ r.value = value) {w : CmdWord} {m : String} :
    (∃ r ∈ rows, r.selects w = true ∧ r.mnemonic = m) ↔
      w &&& mask = value ∧ ∃ r ∈ rows, r.Covers (addrField w) ∧ r.mnemonic = m := by
  have hrow {r : OpRow} (hr : r ∈ rows) : r.selects w = true ↔ w &&& mask = value ∧ r.Covers (addrField w) := by
    obtain ⟨rfl, rfl⟩ := hfixed r hr
    exact OpRow.selects_iff
  constructor
  · rintro ⟨r, hr, hsel, hm⟩
    obtain ⟨hbits, hcovers⟩ := (hrow hr).1 hsel
    exact ⟨hbits, r, hr, hcovers, hm⟩
  · rintro ⟨hbits, r, hr, hcovers, hm⟩
    exact ⟨r, hr, (hrow hr).2 ⟨hbits, hcovers⟩, hm⟩

/-- The READ rows select a READ with DATA = 0, under the mnemonic of its address's row. -/
theorem readRows_select_iff {w : CmdWord} {m : String} : (∃ r ∈ readRows, r.selects w = true ∧ r.mnemonic = m) ↔
    (rsvField w = 0 ∧ opField w = opRead ∧ dataField w = 0) ∧ (decodeRead (addrField w)).mnemonic = m := by
  rw [exists_row_selects_iff fixed_bits_of_readRow, and_readMask_iff,
    exists_row_covers_iff_of_perm decodeRead_mnemonic_congr readRows_intervals]

/-- The WRITE rows select a WRITE, under the mnemonic of its address's row. -/
theorem writeRows_select_iff {w : CmdWord} {m : String} : (∃ r ∈ writeRows, r.selects w = true ∧ r.mnemonic = m) ↔
    (rsvField w = 0 ∧ opField w = opWrite) ∧ (decodeWrite (addrField w) (dataField w)).mnemonic = m := by
  rw [exists_row_selects_iff fixed_bits_of_writeRow, and_writeMask_iff,
    exists_row_covers_iff_of_perm (decodeWrite_mnemonic_congr 0 0) writeRows_intervals,
    decodeWrite_mnemonic_congr 0 (dataField w) _ _ rfl]

/-- The one interval of the ADVANCE and INIT rows. -/
theorem covers_zero {r : OpRow} {a : Addr} (hr : r.ranges = [(0x0000, 0x0000)]) (ha : a = 0) : r.Covers a :=
  ⟨(0x0000, 0x0000), by rw [hr]; exact List.mem_singleton.2 rfl, by rw [ha], by rw [ha]⟩

/-- The ADVANCE row selects an ADVANCE with ADDR = 0. -/
theorem advanceRow_selects_iff {w : CmdWord} :
    OpRow.selects ⟨"ADV", 0xFFFFFF00, 0x80000000, [(0x0000, 0x0000)]⟩ w = true ↔
      rsvField w = 0 ∧ opField w = opAdvance ∧ addrField w = 0 := by
  rw [OpRow.selects_iff, and_advanceMask_iff, and_iff_left_of_imp]
  exact fun ⟨_, _, haddr⟩ => covers_zero rfl haddr

/-- The INIT row selects an INIT with ADDR = 0 and DATA = 0. -/
theorem initRow_selects_iff {w : CmdWord} :
    OpRow.selects ⟨"INIT", 0xFFFFFFFF, 0xC0000000, [(0x0000, 0x0000)]⟩ w = true ↔
      rsvField w = 0 ∧ opField w = opInit ∧ addrField w = 0 ∧ dataField w = 0 := by
  rw [OpRow.selects_iff, and_initMask_iff, and_iff_left_of_imp]
  exact fun ⟨_, _, haddr, _⟩ => covers_zero rfl haddr

theorem mem_opcodeRows {r : OpRow} : r ∈ opcodeRows ↔ r ∈ readRows ∨ r ∈ writeRows ∨
    r = ⟨"ADV", 0xFFFFFF00, 0x80000000, [(0x0000, 0x0000)]⟩ ∨
    r = ⟨"INIT", 0xFFFFFFFF, 0xC0000000, [(0x0000, 0x0000)]⟩ := by
  simp only [opcodeRows, List.mem_append, List.mem_cons, List.not_mem_nil, or_false, or_assoc]

/-- A row that selects a word is named after the command the word decodes to (R71). -/
theorem decode_of_selects {r : OpRow} {w : CmdWord} (hr : r ∈ opcodeRows) (hsel : r.selects w = true) :
    ∃ i, decode w = .ok i ∧ i.mnemonic = r.mnemonic := by
  obtain hr | hr | rfl | rfl := mem_opcodeRows.1 hr
  · obtain ⟨⟨hrsv, hop, hdata⟩, hm⟩ := readRows_select_iff.1 ⟨r, hr, hsel, rfl⟩
    exact ⟨_, (DecodesTo.read hrsv hop hdata).decode_eq, hm⟩
  · obtain ⟨⟨hrsv, hop⟩, hm⟩ := writeRows_select_iff.1 ⟨r, hr, hsel, rfl⟩
    exact ⟨_, (DecodesTo.write hrsv hop).decode_eq, hm⟩
  · obtain ⟨hrsv, hop, haddr⟩ := advanceRow_selects_iff.1 hsel
    exact ⟨_, (DecodesTo.advance hrsv hop haddr).decode_eq, rfl⟩
  · obtain ⟨hrsv, hop, haddr, hdata⟩ := initRow_selects_iff.1 hsel
    exact ⟨_, (DecodesTo.init hrsv hop haddr hdata).decode_eq, rfl⟩

/-- A word with a meaning is selected by a row (R71). -/
theorem DecodesTo.exists_row_selects {w : CmdWord} {i : Instr} (h : DecodesTo w i) :
    ∃ r ∈ opcodeRows, r.selects w = true ∧ r.mnemonic = i.mnemonic := by
  cases h with
  | read hrsv hop hdata =>
    obtain ⟨r, hr, hsel⟩ := readRows_select_iff.2 ⟨⟨hrsv, hop, hdata⟩, rfl⟩
    exact ⟨r, mem_opcodeRows.2 (.inl hr), hsel⟩
  | write hrsv hop =>
    obtain ⟨r, hr, hsel⟩ := writeRows_select_iff.2 ⟨⟨hrsv, hop⟩, rfl⟩
    exact ⟨r, mem_opcodeRows.2 (.inr (.inl hr)), hsel⟩
  | advance hrsv hop haddr =>
    exact ⟨_, mem_opcodeRows.2 (.inr (.inr (.inl rfl))), advanceRow_selects_iff.2 ⟨hrsv, hop, haddr⟩, rfl⟩
  | init hrsv hop haddr hdata =>
    exact ⟨_, mem_opcodeRows.2 (.inr (.inr (.inr rfl))), initRow_selects_iff.2 ⟨hrsv, hop, haddr, hdata⟩, rfl⟩

theorem opcodeRows_mnemonics_nodup : (opcodeRows.map OpRow.mnemonic).Nodup := by decide

/-- Filtering a list without duplicates by a test that one element alone passes leaves that element. -/
theorem filter_eq_singleton {rows : List OpRow} (hnodup : rows.Nodup) {r : OpRow} (hr : r ∈ rows) {p : OpRow → Bool}
    (hp : ∀ r' ∈ rows, p r' = true ↔ r' = r) : rows.filter p = [r] := by
  have hbeq : ∀ r' ∈ rows, p r' = (r' == r) := fun r' hr' => Bool.eq_iff_iff.2 ((hp r' hr').trans beq_iff_eq.symm)
  rw [List.filter_congr hbeq, List.filter_beq, List.count_eq_one_of_mem hnodup hr, List.replicate_one]

/-- A row that selects a word is the only one: all that do have its command's mnemonic, and no two rows share one. -/
theorem filter_selects_eq_singleton {r : OpRow} {w : CmdWord} (hr : r ∈ opcodeRows) (hsel : r.selects w = true) :
    opcodeRows.filter (fun r => r.selects w) = [r] := by
  refine filter_eq_singleton (.of_map _ opcodeRows_mnemonics_nodup) hr fun r' hr' => ⟨fun hsel' => ?_, ?_⟩
  · obtain ⟨i, hd, hm⟩ := decode_of_selects hr hsel
    obtain ⟨i', hd', hm'⟩ := decode_of_selects hr' hsel'
    cases hd.symm.trans hd'
    exact List.inj_on_of_nodup_map opcodeRows_mnemonics_nodup hr' hr (hm'.symm.trans hm)
  · rintro rfl
    exact hsel

end Sys2Proof

namespace Sys2Proof.Proofs
open Sys2Proof Sys2Proof.Machine

/-- Settles O2, by the kinds of command: the READ and WRITE rows are those that some address decodes to. -/
theorem decodeOfEncodeIsTheCommand : Obligations.DecodeOfEncodeIsTheCommand := by
  unfold Obligations.DecodeOfEncodeIsTheCommand
  intro i hwf hcmd
  obtain ⟨a, rfl⟩ | ⟨a, v, rfl⟩ | ⟨c, rfl⟩ | rfl := command_cases hwf hcmd
  · exact ⟨readWordOf a, encode_decodeRead a, decode_readWordOf a⟩
  · exact ⟨writeWordOf a v, encode_decodeWrite a v, decode_writeWordOf a v⟩
  · exact ⟨_, rfl, decode_advanceWord c⟩
  · exact ⟨_, rfl, decode_initWord⟩

/-- Settles O3: the fields of a word that decodes are those of its command's one word. -/
theorem encodeOfDecodeIsTheWord : Obligations.EncodeOfDecodeIsTheWord := by
  unfold Obligations.EncodeOfDecodeIsTheWord
  intro w i h
  exact (decodesTo_of_decode h).wf_command_encode

/-- Settles O4: some row selects a word that decodes, no second one does, and a selected word decodes. -/
theorem exactlyOneOpcodeRowSelectsAWord : Obligations.ExactlyOneOpcodeRowSelectsAWord := by
  unfold Obligations.ExactlyOneOpcodeRowSelectsAWord
  refine fun w => ⟨fun i hd => ?decoded, fun e hd => ?refused⟩
  case decoded =>
    obtain ⟨r, hr, hsel, hm⟩ := (decodesTo_of_decode hd).exists_row_selects
    exact ⟨r, filter_selects_eq_singleton hr hsel, hm⟩
  case refused =>
    refine List.filter_eq_nil_iff.2 fun r hr hsel => ?_
    obtain ⟨i, hi, _⟩ := decode_of_selects hr hsel
    cases hd.symm.trans hi

/-- Settles O43: the numeric conditions are the fields', and the step refuses what the decoder refuses. -/
theorem malformedWordsAreRefused : Obligations.MalformedWordsAreRefused := by
  unfold Obligations.MalformedWordsAreRefused
  refine fun s w rest hr hp => ⟨fun h => ?reserved, fun htop h => ?read, fun htop h => ?advance, fun htop h => ?init⟩
  case reserved =>
    rw [← rsvField_toNat] at h
    exact step_of_malformed hr hp (decode_of_reserved (BitVec.toNat_ne_iff_ne.1 h))
  case read =>
    obtain ⟨hrsv, hop⟩ := fields_of_top_byte (op := opRead) htop
    rw [← dataField_toNat] at h
    exact step_of_malformed hr hp ((decode_of_read hrsv hop).trans (if_pos (BitVec.toNat_ne_iff_ne.1 h)))
  case advance =>
    obtain ⟨hrsv, hop⟩ := fields_of_top_byte (op := opAdvance) htop
    rw [← addrField_toNat] at h
    exact step_of_malformed hr hp ((decode_of_advance hrsv hop).trans (if_pos (BitVec.toNat_ne_iff_ne.1 h)))
  case init =>
    obtain ⟨hrsv, hop⟩ := fields_of_top_byte (op := opInit) htop
    have hfields : (addrField w).toNat ≠ 0 ∨ (dataField w).toNat ≠ 0 := by
      rw [addrField_toNat, dataField_toNat]
      omega
    exact step_of_malformed hr hp
      ((decode_of_init hrsv hop).trans (if_pos (hfields.imp BitVec.toNat_ne_iff_ne.1 BitVec.toNat_ne_iff_ne.1)))

/-- Settles O1: six words of commands, and five that break R69, each decoded by evaluation. -/
theorem theSpecsExampleWordsDecode : Obligations.TheSpecsExampleWordsDecode := by
  unfold Obligations.TheSpecsExampleWordsDecode
  decide

/-- Settles O5: each word is a `commandWord`, whose fields are the ones it was made of. -/
theorem pseudoOperationsAreTheirExpansionsWords : Obligations.PseudoOperationsAreTheirExpansionsWords := by
  unfold Obligations.PseudoOperationsAreTheirExpansionsWords
  refine ⟨fun a => ⟨readWordOf a, readWordOf (a + 1), rfl, ?rdw⟩,
    fun a w => ⟨writeWordOf a (lowByte w), writeWordOf (a + 1) (highByte w), rfl, ?wrw⟩,
    fun p => ⟨writeWordOf Config.dmaReg p, rfl, ?dma⟩⟩
  case rdw =>
    simp [readWordOf]
  case wrw =>
    simp [writeWordOf, lowByte_toNat, highByte_toNat]
  case dma =>
    simp [writeWordOf]

/-- Settles O41: the step of a running machine, from the decoder on. -/
theorem stepRunsTheDecodedCommand : Obligations.StepRunsTheDecodedCommand := by
  unfold Obligations.StepRunsTheDecodedCommand
  intro s w rest i hr hp hd
  exact step_of_pending hr hp hd

end Sys2Proof.Proofs
end

section
/-! PROOFS. The READ rows of spec/40_byte_read.md: the row of an address by its region, what a READ of an accepting state
comes to, and the rows' responses.
-/
namespace Sys2Proof

/-! ### The READ row of an address, by its region (30_encoding.md R70) -/

theorem decodeRead_of_vram {a : Addr} (h : region a = .vram) : decodeRead a = .rdVram a := by
  simp only [decodeRead, h]

theorem decodeRead_of_wram {a : Addr} (h : region a = .wram) : decodeRead a = .rdWram a := by
  simp only [decodeRead, h]

theorem decodeRead_of_echo {a : Addr} (h : region a = .echo) : decodeRead a = .rdEcho a := by
  simp only [decodeRead, h]

theorem decodeRead_of_oam {a : Addr} (h : region a = .oam) : decodeRead a = .rdOam a := by
  simp only [decodeRead, h]

theorem decodeRead_of_hram {a : Addr} (h : region a = .hram) : decodeRead a = .rdHram a := by
  simp only [decodeRead, h]

theorem decodeRead_of_unmapped {a : Addr} (h : region a = .unmapped) : decodeRead a = .rdUnmapped a := by
  simp only [decodeRead, h]

theorem decodeRead_of_sound {a : Addr} (h : region a = .sound) : decodeRead a = .rdSound a := by
  simp only [decodeRead, h]

theorem decodeRead_of_serial {a : Addr} (h : region a = .serial) : decodeRead a = .rdSerial a := by
  simp only [decodeRead, h]

theorem decodeRead_of_cgb {a : Addr} (h : region a = .cgb) : decodeRead a = .rdCgb a := by
  simp only [decodeRead, h]

namespace Machine

/-! ### What a READ of an accepting state comes to (40_byte_read.md R98) -/

/-- An address with no read handler reads as the neutral default (20_memory.md R42). -/
theorem memRead_of_unmapped_or_sound (b : BusState) {a : Addr} (h : region a = .unmapped ∨ region a = .sound) :
    memRead b a = .done Config.neutralByte := by
  obtain h | h := h <;> exact memRead_of_peek (by rw [peek_by_region, h])

/-- A READ of SERIAL or CGB leaves the faulted bus and gives no data (R88, R95). -/
theorem exec_decodeRead_raised {s : State} (hs : s.accepting) {a : Addr} (h : (region a).fatalOnRead = true) :
    exec (decodeRead a) s = .next (s.respond (s.bus.fault .unsupportedFeatureAccess a) .none) :=
  (exec_decodeRead a s).trans (readCommand_raised hs (memRead_raised s.bus h))

/-- The row of an address whose bus read completes: its response is that byte, and nothing else changes. -/
theorem readRow_completes {s : State} (hs : s.accepting) {a : Addr} {i : Instr} {v : Byte} (hi : decodeRead a = i)
    (hv : memRead s.bus a = .done v) :
    ∃ t, exec i s = .next t ∧ t.bus = s.bus ∧ t.pending = s.pending ∧ t.response = .byte v := by
  subst hi
  exact ⟨_, exec_decodeRead_done hs hv, rfl, rfl, rfl⟩

/-- The row of an address whose bus read is fatal: of the bus only the status changes, and there is no data. -/
theorem readRow_raises {s : State} (hs : s.accepting) {a : Addr} {i : Instr} (hi : decodeRead a = i)
    (hf : (region a).fatalOnRead = true) :
    ∃ t, exec i s = .next t ∧ t.bus = { s.bus with status := .faulted .unsupportedFeatureAccess a } ∧
      t.response = .none := by
  subst hi
  exact ⟨_, exec_decodeRead_raised hs hf, rfl, rfl⟩

/-- RD.LCDREG at a register's address gives the stored register (R92). -/
theorem exec_rdLcdreg {s : State} (hs : s.accepting) {a : Addr} {n : VideoReg} (hn : videoRegAt a = some n) :
    exec (.rdLcdreg a) s = .next (s.respond s.bus (.byte (s.bus.video.regs.get n))) :=
  readCommand_done hs (rd := (readLcdreg · a)) (by simp only [readLcdreg, readRegister, hn])

end Machine
end Sys2Proof

namespace Sys2Proof.Proofs
open Sys2Proof Sys2Proof.Machine

/-- Settles O8: the interval's region gives the row, and the byte its bus read completes with. -/
theorem storageReadsReturnTheStoredByte : Obligations.StorageReadsReturnTheStoredByte := by
  unfold Obligations.StorageReadsReturnTheStoredByte
  intro s a hs
  refine ⟨fun ⟨h1, h2⟩ => ?vram, fun ⟨h1, h2⟩ => ?wram, fun ⟨h1, h2⟩ => ?echo, fun ⟨h1, h2⟩ => ?oam,
    fun ⟨h1, h2⟩ => ?hram⟩
  case vram =>
    have hr := region_of_row ⟨0x8000, 0x9FFF, .vram⟩ (by decide) h1 h2
    have hi := decodeRead_of_vram hr
    exact ⟨hi, readRow_completes hs hi (memRead_of_vram s.bus hr)⟩
  case wram =>
    have hr := region_of_row ⟨0xC000, 0xDFFF, .wram⟩ (by decide) h1 h2
    have hi := decodeRead_of_wram hr
    exact ⟨hi, readRow_completes hs hi (memRead_of_wram_or_echo s.bus (.inl hr))⟩
  case echo =>
    have hr := region_of_row ⟨0xE000, 0xFDFF, .echo⟩ (by decide) h1 h2
    have hi := decodeRead_of_echo hr
    exact ⟨hi, readRow_completes hs hi (memRead_of_wram_or_echo s.bus (.inr hr))⟩
  case oam =>
    have hr := region_of_row ⟨0xFE00, 0xFE9F, .oam⟩ (by decide) h1 h2
    have hi := decodeRead_of_oam hr
    exact ⟨hi, readRow_completes hs hi (memRead_of_oam s.bus hr)⟩
  case hram =>
    have hr := region_of_row ⟨0xFF80, 0xFFFE, .hram⟩ (by decide) h1 h2
    have hi := decodeRead_of_hram hr
    exact ⟨hi, readRow_completes hs hi (memRead_of_hram s.bus hr)⟩

/-- Settles O16, by whether the address is one of SERIAL and CGB, whose reads alone are fatal. -/
theorem readsChangeNoBusState : Obligations.ReadsChangeNoBusState := by
  unfold Obligations.ReadsChangeNoBusState
  intro s a hs
  cases hf : (region a).fatalOnRead with
  | false =>
    obtain ⟨v, hv⟩ := memRead_done s.bus hf
    exact ⟨_, exec_decodeRead_done hs hv, fun _ => ⟨rfl, v, rfl⟩, nofun⟩
  | true => exact ⟨_, exec_decodeRead_raised hs hf, nofun, fun _ => ⟨rfl, rfl⟩⟩

/-- Settles O9: each row's access is the stored byte, and hands the bus back as it is. -/
theorem interruptRegisterReads : Obligations.InterruptRegisterReads := by
  unfold Obligations.InterruptRegisterReads
  exact ⟨rfl, rfl, fun s hs =>
    ⟨readRow_completes hs (a := Config.ifAddr) rfl rfl, readRow_completes hs (a := Config.ieAddr) rfl rfl⟩⟩

/-- Settles O10: the access to LY is the sentinel, for every bus. -/
theorem lyReadsAs148 : Obligations.LyReadsAs148 := by
  unfold Obligations.LyReadsAs148
  exact ⟨rfl, fun s hs => readRow_completes hs (a := Config.lyAddr) rfl rfl⟩

/-- Settles O11: the register file's table puts the named register at each address. -/
theorem lcdRegisterReads : Obligations.LcdRegisterReads := by
  unfold Obligations.LcdRegisterReads
  intro s hs
  exact ⟨exec_rdLcdreg hs (n := .lcdc) rfl, exec_rdLcdreg hs (n := .stat) rfl, exec_rdLcdreg hs (n := .scy) rfl,
    exec_rdLcdreg hs (n := .scx) rfl, exec_rdLcdreg hs (n := .lyc) rfl, exec_rdLcdreg hs (n := .bgp) rfl,
    exec_rdLcdreg hs (n := .obp0) rfl, exec_rdLcdreg hs (n := .obp1) rfl, exec_rdLcdreg hs (n := .wy) rfl,
    exec_rdLcdreg hs (n := .wx) rfl⟩

/-- Settles O12: both regions have no read handler. -/
theorem unmappedAndSoundReadZero : Obligations.UnmappedAndSoundReadZero := by
  unfold Obligations.UnmappedAndSoundReadZero
  intro s a hs
  refine ⟨fun h => ?unmapped, fun ⟨h1, h2⟩ => ?sound⟩
  case unmapped =>
    have hr := region_eq_unmapped h
    have hi := decodeRead_of_unmapped hr
    exact ⟨hi, readRow_completes hs hi (memRead_of_unmapped_or_sound s.bus (.inl hr))⟩
  case sound =>
    have hr := region_of_row ⟨0xFF10, 0xFF3F, .sound⟩ (by decide) h1 h2
    have hi := decodeRead_of_sound hr
    exact ⟨hi, readRow_completes hs hi (memRead_of_unmapped_or_sound s.bus (.inr hr))⟩

/-- Settles O13: the access is the neutral default, for every bus. -/
theorem dmaRegisterReadsZero : Obligations.DmaRegisterReadsZero := by
  unfold Obligations.DmaRegisterReadsZero
  exact fun s hs => readCommand_done hs (rd := readDma) rfl

/-- Settles O14: each row's access is the collaborator's read of its own state. -/
theorem collaboratorReads : Obligations.CollaboratorReads := by
  unfold Obligations.CollaboratorReads
  intro s a hs
  exact ⟨fun _ => readCommand_done hs (rd := (readCart · a)) rfl, readCommand_done hs (rd := readJoyp) rfl,
    fun _ => readCommand_done hs (rd := (readTimer · a)) rfl⟩

/-- Settles O15: the interval's region gives the row, and its reads are fatal. -/
theorem serialAndCgbReadsRaise : Obligations.SerialAndCgbReadsRaise := by
  unfold Obligations.SerialAndCgbReadsRaise
  intro s a hs
  refine ⟨fun ⟨h1, h2⟩ => ?serial, fun ⟨h1, h2⟩ => ?cgb⟩
  case serial =>
    have hr := region_of_row ⟨0xFF01, 0xFF02, .serial⟩ (by decide) h1 h2
    have hi := decodeRead_of_serial hr
    exact ⟨hi, readRow_raises hs hi (by rw [hr]; rfl)⟩
  case cgb =>
    have hr := region_of_row ⟨0xFF4C, 0xFF7F, .cgb⟩ (by decide) h1 h2
    have hi := decodeRead_of_cgb hr
    exact ⟨hi, readRow_raises hs hi (by rw [hr]; rfl)⟩

end Sys2Proof.Proofs
end

section
/-! PROOFS. The WRITE rows of spec/41_byte_write.md: the row of an address by its region, what a bus read depends on, the
writes that read back and the ones that store no readable byte, and the DMA transfer as a command.
-/
namespace Sys2Proof

/-! ### The WRITE row of an address, by its region (30_encoding.md R70) -/

theorem decodeWrite_of_vram {a : Addr} (h : region a = .vram) (v : Byte) : decodeWrite a v = .wrVram a v := by
  simp only [decodeWrite, h]

theorem decodeWrite_of_wram {a : Addr} (h : region a = .wram) (v : Byte) : decodeWrite a v = .wrWram a v := by
  simp only [decodeWrite, h]

theorem decodeWrite_of_echo {a : Addr} (h : region a = .echo) (v : Byte) : decodeWrite a v = .wrEcho a v := by
  simp only [decodeWrite, h]

theorem decodeWrite_of_oam {a : Addr} (h : region a = .oam) (v : Byte) : decodeWrite a v = .wrOam a v := by
  simp only [decodeWrite, h]

theorem decodeWrite_of_hram {a : Addr} (h : region a = .hram) (v : Byte) : decodeWrite a v = .wrHram a v := by
  simp only [decodeWrite, h]

/-! ### Addresses of the same byte -/

/-- In a region of one interval, no longer than n, the offset modulo n decides the address (20_memory.md R45 to R48). -/
theorem eq_of_mod_eq_of_region (row : RegionRow) {n : Nat} {a x : Addr}
    (hrow : ∀ row' ∈ regionTable, row'.region = row.region → row' = row)
    (hlen : row.last.toNat < row.first.toNat + n) (ha : region a = row.region) (hx : region x = row.region)
    (h : x.toNat % n = a.toNat % n) : x = a := by
  obtain ⟨row₁, hmem₁, hr₁, ha₁, ha₂⟩ := region_eq_iff.1 ha
  obtain ⟨row₂, hmem₂, hr₂, hx₁, hx₂⟩ := region_eq_iff.1 hx
  obtain rfl := hrow row₁ hmem₁ hr₁
  obtain rfl := hrow row₂ hmem₂ hr₂
  exact BitVec.eq_of_toNat_eq (Nat.ModEq.eq_of_abs_lt h (by rw [abs_lt]; omega))

theorem eq_of_vramIndex_eq {a x : Addr} (ha : region a = .vram) (hx : region x = .vram)
    (h : vramIndex x = vramIndex a) : x = a := by
  rw [vramIndex_eq, vramIndex_eq] at h
  exact eq_of_mod_eq_of_region ⟨0x8000, 0x9FFF, .vram⟩ (by decide) (by decide) ha hx h

theorem eq_of_oamIndex_eq {a x : Addr} (ha : region a = .oam) (hx : region x = .oam)
    (h : oamIndex x = oamIndex a) : x = a := by
  rw [oamIndex_eq, oamIndex_eq] at h
  exact eq_of_mod_eq_of_region ⟨0xFE00, 0xFE9F, .oam⟩ (by decide) (by decide) ha hx h

theorem eq_of_hramIndex_eq {a x : Addr} (ha : region a = .hram) (hx : region x = .hram)
    (h : hramIndex x = hramIndex a) : x = a := by
  rw [hramIndex_eq, hramIndex_eq] at h
  exact eq_of_mod_eq_of_region ⟨0xFF80, 0xFFFE, .hram⟩ (by decide) (by decide) ha hx h

/-- Two addresses of one byte: the WRAM and ECHO addresses of one index, and no others (20_memory.md R46, R56). -/
abbrev SameByte (a x : Addr) : Prop :=
  x = a ∨ (region a ∈ [Region.wram, .echo] ∧ region x ∈ [Region.wram, .echo] ∧ x.toNat % 0x2000 = a.toNat % 0x2000)

/-- The DMA source address in digits (44_dma.md R141). -/
theorem dmaSource_eq_ofNat (page : Byte) {i : Nat} (hi : i < Config.dmaLen) :
    dmaSource page i = BitVec.ofNat 16 (page.toNat * 256 + i) := by
  rw [← dmaSource_toNat page hi, BitVec.ofNat_toNat, BitVec.setWidth_eq]

/-- A register write is seen at the register's own address alone: no second address has it (10_state.md R12). -/
theorem VideoRegs.get_set_of_other_address (r : VideoRegs) (v : Byte) {a x : Addr} {n : VideoReg}
    (hn : videoRegAt a = some n) (hx : x ≠ a) : (videoRegAt x).map (r.set n v).get = (videoRegAt x).map r.get :=
  Option.map_congr fun _ hm => VideoRegs.get_set_of_ne r v fun e => hx (videoRegAt_inj hn (e ▸ hm))

namespace Machine

/-! ### What a bus read depends on -/

/-- A bus read depends on what its own region names and on nothing else, the status included (40_byte_read.md R80 to
R97). A store that the two buses share needs no argument. -/
theorem peek_congr {b b' : BusState} {x : Addr}
    (hcart : region x = .cartRom ∨ region x = .cartRam → b'.cart = b.cart := by exact fun _ => rfl)
    (hvram : region x = .vram → Memory.readByte b'.video.vram (vramIndex x) = Memory.readByte b.video.vram (vramIndex x)
      := by exact fun _ => rfl)
    (hwram : region x = .wram ∨ region x = .echo →
      Memory.readByte b'.wram (wramIndex x) = Memory.readByte b.wram (wramIndex x) := by exact fun _ => rfl)
    (hoam : region x = .oam → Memory.readByte b'.video.oam (oamIndex x) = Memory.readByte b.video.oam (oamIndex x)
      := by exact fun _ => rfl)
    (hjoyp : region x = .joyp → b'.input = b.input := by exact fun _ => rfl)
    (htimer : region x = .timer → b'.timer = b.timer := by exact fun _ => rfl)
    (hif : region x = .ifReg → b'.ifReg = b.ifReg := by exact fun _ => rfl)
    (hlcdreg : region x = .lcdreg → (videoRegAt x).map b'.video.regs.get = (videoRegAt x).map b.video.regs.get
      := by exact fun _ => rfl)
    (hhram : region x = .hram → Memory.readByte b'.hram (hramIndex x) = Memory.readByte b.hram (hramIndex x)
      := by exact fun _ => rfl)
    (hie : region x = .ie → b'.ieReg = b.ieReg := by exact fun _ => rfl) : peek b' x = peek b x := by
  rw [peek_by_region, peek_by_region]
  cases hr : region x
  case cartRom => simp only [hcart (.inl hr)]
  case cartRam => simp only [hcart (.inr hr)]
  case vram => simp only [hvram hr]
  case wram => simp only [hwram (.inl hr)]
  case echo => simp only [hwram (.inr hr)]
  case oam => simp only [hoam hr]
  case joyp => simp only [hjoyp hr]
  case timer => simp only [htimer hr]
  case ifReg => simp only [hif hr]
  case lcdreg => exact hlcdreg hr
  case hram => simp only [hhram hr]
  case ie => simp only [hie hr]
  case unmapped | serial | sound | ly | dma | cgb => rfl

/-- Two addresses of one byte read alike on every bus (R46). -/
theorem peek_of_sameByte (b : BusState) {a x : Addr} (h : SameByte a x) : peek b x = peek b a := by
  obtain rfl | ⟨ha, hx, hmod⟩ := h
  · rfl
  · rw [peek_of_memRead (memRead_of_wram_or_echo b (by simpa using hx)),
      peek_of_memRead (memRead_of_wram_or_echo b (by simpa using ha)), wramIndex_eq, wramIndex_eq, hmod]

/-! ### The byte writes outside the storage windows, by region -/

theorem memWrite_of_cart (b : BusState) {a : Addr} (v : Byte) (h : region a = .cartRom ∨ region a = .cartRam) :
    memWrite b a v = .done { b with cart := b.cart.write a v } := by
  obtain h | h := h <;> simp only [memWrite, h, writeCart]

theorem memWrite_of_joyp (b : BusState) {a : Addr} (v : Byte) (h : region a = .joyp) :
    memWrite b a v = .done { b with input := b.input.write Config.joypAddr v } := by
  simp only [memWrite, h, writeJoyp]

theorem memWrite_of_timer (b : BusState) {a : Addr} (v : Byte) (h : region a = .timer) :
    memWrite b a v = .done { b with timer := b.timer.write a v } := by
  simp only [memWrite, h, writeTimer]

theorem memWrite_of_ifReg (b : BusState) {a : Addr} (v : Byte) (h : region a = .ifReg) :
    memWrite b a v = .done { b with ifReg := v } := by
  simp only [memWrite, h, writeIf]

theorem memWrite_of_ie (b : BusState) {a : Addr} (v : Byte) (h : region a = .ie) :
    memWrite b a v = .done { b with ieReg := v } := by
  simp only [memWrite, h, writeIe]

/-- The registers' addresses, LY's among them, reach the register file (41_byte_write.md R112, R113). -/
theorem memWrite_of_videoReg (b : BusState) {a : Addr} (v : Byte) {n : VideoReg}
    (h : region a = .lcdreg ∨ region a = .ly) (hn : videoRegAt a = some n) : memWrite b a v =
      .done { b with video := { b.video with regs := b.video.regs.set n v } } := by
  obtain h | h := h
  · simp only [memWrite, h, writeLcdreg, writeRegister, hn]
  · obtain rfl := eq_lyAddr_of_region h
    simp only [memWrite, h, writeLy, writeRegister, hn]

/-- The write is ignored where the spec gives it no handler (20_memory.md R44). -/
theorem memWrite_of_ignored (b : BusState) {a : Addr} (v : Byte)
    (h : region a ∈ [Region.unmapped, .serial, .sound, .cgb]) : memWrite b a v = .done b := by
  simp only [List.mem_cons, List.not_mem_nil, or_false] at h
  obtain h | h | h | h := h <;> simp only [memWrite, h, writeUnmapped, writeSerial, writeSound, writeCgb]

theorem memWrite_of_dmaReg (b : BusState) (page : Byte) : memWrite b Config.dmaReg page = dmaTransfer b page := by
  simp only [memWrite, show region Config.dmaReg = .dma from by decide, writeDma]

/-! ### What a byte write leaves readable (41_byte_write.md R118) -/

/-- What a write that reads back leaves: the status, the value at its address, and at every address that is not the same
byte what was there before. -/
structure ReadsBack (b : BusState) (a : Addr) (v : Byte) (b' : BusState) : Prop where
  status : b'.status = b.status
  written : peek b' a = some v
  elsewhere : ∀ x, ¬ SameByte a x → peek b' x = peek b x

/-- A write to a storage window, to IF, IE or LCDREG completes and reads back. -/
theorem memWrite_reads_back (b : BusState) {a : Addr} (v : Byte)
    (h : region a ∈ [Region.vram, .wram, .echo, .oam, .hram, .ifReg, .ie, .lcdreg]) :
    ∃ b', memWrite b a v = .done b' ∧ ReadsBack b a v b' := by
  obtain ha | ha | ha | ha | ha | ha | ha : region a = .vram ∨ (region a = .wram ∨ region a = .echo) ∨ region a = .oam ∨
      region a = .hram ∨ region a = .ifReg ∨ region a = .ie ∨ region a = .lcdreg := by simpa [or_assoc] using h
  · refine ⟨_, memWrite_of_vram b v ha, rfl, ?_, fun x hne => peek_congr (hvram := fun hx => ?_)⟩
    · rw [peek_of_memRead (memRead_of_vram _ ha), Memory.readByte_writeByte_same]
    · exact Memory.readByte_writeByte_of_ne _ v fun hi => hne (.inl (eq_of_vramIndex_eq ha hx hi))
  · refine ⟨_, memWrite_of_wram_or_echo b v ha, rfl, ?_, fun x hne => peek_congr (hwram := fun hx => ?_)⟩
    · rw [peek_of_memRead (memRead_of_wram_or_echo _ ha), Memory.readByte_writeByte_same]
    · refine Memory.readByte_writeByte_of_ne _ v fun hi => hne (.inr ⟨by simpa using ha, by simpa using hx, ?_⟩)
      rwa [wramIndex_eq, wramIndex_eq] at hi
  · refine ⟨_, memWrite_of_oam b v ha, rfl, ?_, fun x hne => peek_congr (hoam := fun hx => ?_)⟩
    · rw [peek_of_memRead (memRead_of_oam _ ha), Memory.readByte_writeByte_same]
    · exact Memory.readByte_writeByte_of_ne _ v fun hi => hne (.inl (eq_of_oamIndex_eq ha hx hi))
  · refine ⟨_, memWrite_of_hram b v ha, rfl, ?_, fun x hne => peek_congr (hhram := fun hx => ?_)⟩
    · rw [peek_of_memRead (memRead_of_hram _ ha), Memory.readByte_writeByte_same]
    · exact Memory.readByte_writeByte_of_ne _ v fun hi => hne (.inl (eq_of_hramIndex_eq ha hx hi))
  · refine ⟨_, memWrite_of_ifReg b v ha, rfl, by rw [peek_by_region, ha], fun x hne => peek_congr (hif := fun hx => ?_)⟩
    exact absurd (.inl ((eq_ifAddr_of_region hx).trans (eq_ifAddr_of_region ha).symm)) hne
  · refine ⟨_, memWrite_of_ie b v ha, rfl, by rw [peek_by_region, ha], fun x hne => peek_congr (hie := fun hx => ?_)⟩
    exact absurd (.inl ((eq_ieAddr_of_region hx).trans (eq_ieAddr_of_region ha).symm)) hne
  · obtain ⟨n, hn⟩ := Option.isSome_iff_exists.1 (videoRegAt_of_region (.inl ha))
    refine ⟨_, memWrite_of_videoReg b v (.inl ha) hn, rfl, ?_, fun x hne => peek_congr (hlcdreg := fun _ => ?_)⟩
    · simp only [peek_by_region, ha, hn, Option.map_some, VideoRegs.get_set_same]
    · exact VideoRegs.get_set_of_other_address _ v hn fun e => hne (.inl e)

/-- A write to LY completes and no address sees it: LY itself reads as the sentinel (40_byte_read.md R93). -/
theorem memWrite_ly_unseen (b : BusState) {a : Addr} (v : Byte) (h : region a = .ly) :
    ∃ b', memWrite b a v = .done b' ∧ ∀ x, peek b' x = peek b x := by
  obtain rfl := eq_lyAddr_of_region h
  refine ⟨_, memWrite_of_videoReg b v (n := .ly) (.inr h) rfl, fun x => peek_congr (hlcdreg := fun hx => ?_)⟩
  have hne : x ≠ Config.lyAddr := by
    rintro rfl
    cases hx.symm.trans h
  exact VideoRegs.get_set_of_other_address _ v rfl hne

/-! ### WRITE commands on an accepting state -/

/-- A WRITE whose bus write completes moves the position by one, and its response has no data (30_encoding.md R67). -/
theorem exec_decodeWrite_done {s : State} (hs : s.accepting) {a : Addr} {v : Byte} {b : BusState}
    (h : memWrite s.bus a v = .done b) : exec (decodeWrite a v) s = .next (s.respond b .none) :=
  (exec_decodeWrite a v s).trans (writeCommand_done hs h)

/-- The row of an address whose bus write completes. -/
theorem writeRow_completes {s : State} (hs : s.accepting) {a : Addr} {v : Byte} {i : Instr} {b : BusState}
    (hi : decodeWrite a v = i) (h : memWrite s.bus a v = .done b) : exec i s = .next (s.respond b .none) :=
  hi ▸ exec_decodeWrite_done hs h

/-- WR.LCDREG at a register's address replaces that register (41_byte_write.md R112). -/
theorem exec_wrLcdreg {s : State} (hs : s.accepting) {a : Addr} (v : Byte) {n : VideoReg} (hn : videoRegAt a = some n) :
    exec (.wrLcdreg a v) s = .next
      (s.respond { s.bus with video := { s.bus.video with regs := s.bus.video.regs.set n v } } .none) :=
  writeCommand_done hs (wr := (writeLcdreg · a v)) (by simp only [writeLcdreg, writeRegister, hn])

/-- WR.LY replaces the stored LY (R113). -/
theorem exec_wrLy {s : State} (hs : s.accepting) (v : Byte) : exec (.wrLy v) s = .next
    (s.respond { s.bus with video := { s.bus.video with regs := s.bus.video.regs.set .ly v } } .none) :=
  writeCommand_done hs (wr := (writeLy · v)) rfl

/-- RD.LY gives the sentinel, whatever is stored (40_byte_read.md R93). -/
theorem exec_rdLy {s : State} (hs : s.accepting) :
    exec .rdLy s = .next (s.respond s.bus (.byte Config.lyReadSentinel)) :=
  readCommand_done hs (rd := readLy) rfl

end Machine
end Sys2Proof

namespace Sys2Proof.Proofs
open Sys2Proof Sys2Proof.Machine

/-- Settles O18: the window's bus write, and the array read after it. -/
theorem storageWritesStoreExactlyOneByte : Obligations.StorageWritesStoreExactlyOneByte := by
  unfold Obligations.StorageWritesStoreExactlyOneByte
  intro s a v hs
  refine ⟨fun h => ⟨_, writeRow_completes hs (decodeWrite_of_vram h v) (memWrite_of_vram s.bus v h), fun i => ?_⟩,
    fun h => ⟨_, writeRow_completes hs (decodeWrite_of_wram h v) (memWrite_of_wram_or_echo s.bus v (.inl h)),
      fun i => ?_⟩,
    fun h => ⟨_, writeRow_completes hs (decodeWrite_of_echo h v) (memWrite_of_wram_or_echo s.bus v (.inr h)),
      fun i => ?_⟩,
    fun h => ⟨_, writeRow_completes hs (decodeWrite_of_oam h v) (memWrite_of_oam s.bus v h), fun i => ?_⟩,
    fun h => ⟨_, writeRow_completes hs (decodeWrite_of_hram h v) (memWrite_of_hram s.bus v h), fun i => ?_⟩⟩
  all_goals exact Memory.readByte_writeByte _ _ i v

/-- Settles O24: another address of the byte reads what the written one does, and every other byte reads as before. -/
theorem writeThenReadAnywhere : Obligations.WriteThenReadAnywhere := by
  unfold Obligations.WriteThenReadAnywhere
  intro s a v hs ha
  obtain ⟨b, hw, hb⟩ := memWrite_reads_back s.bus v ha
  refine ⟨_, exec_decodeWrite_done hs hw, hb.status.trans hs.1, fun x => ?_⟩
  change peek b x = if SameByte a x then some v else peek s.bus x
  by_cases hx : SameByte a x
  · rw [if_pos hx, peek_of_sameByte b hx, hb.written]
  · rw [if_neg hx, hb.elsewhere x hx]

/-- Settles O25: an ignored write keeps the bus, no read sees the stored LY, and a collaborator is read in its own
region alone. -/
theorem nonStoringWritesLeaveReadsAlone : Obligations.NonStoringWritesLeaveReadsAlone := by
  unfold Obligations.NonStoringWritesLeaveReadsAlone
  refine fun s a v hs => ⟨fun h => ?unseen, fun h => ?cart, fun h => ?device⟩
  case unseen =>
    obtain h | h : region a ∈ [Region.unmapped, .serial, .sound, .cgb] ∨ region a = .ly := by simpa [or_assoc] using h
    · exact ⟨_, exec_decodeWrite_done hs (memWrite_of_ignored s.bus v h), fun _ => rfl⟩
    · obtain ⟨b, hw, hpeek⟩ := memWrite_ly_unseen s.bus v h
      exact ⟨_, exec_decodeWrite_done hs hw, hpeek⟩
  case cart =>
    have hw := memWrite_of_cart s.bus v (by simpa using h)
    exact ⟨_, exec_decodeWrite_done hs hw, fun x hx => peek_congr (hcart := fun hc => absurd (by simpa using hc) hx)⟩
  case device =>
    obtain h | h : region a = .joyp ∨ region a = .timer := by simpa using h
    · exact ⟨_, exec_decodeWrite_done hs (memWrite_of_joyp s.bus v h),
        fun x hx => peek_congr (hjoyp := fun hj => absurd (hj.trans h.symm) hx)⟩
    · exact ⟨_, exec_decodeWrite_done hs (memWrite_of_timer s.bus v h),
        fun x hx => peek_congr (htimer := fun ht => absurd (ht.trans h.symm) hx)⟩

/-- Settles O26, from the transfer's own law: its bytes are the source bytes as they read before. -/
theorem dmaCopies160Bytes : Obligations.DmaCopies160Bytes := by
  unfold Obligations.DmaCopies160Bytes
  intro s page hs hp
  obtain ⟨m, hdone, hcopied, hkept⟩ := dmaTransfer_copies s.bus hp
  refine ⟨m, writeCommand_done hs (wr := (writeDma · page)) hdone,
    writeCommand_done hs (wr := (memWrite · Config.dmaReg page)) ((memWrite_of_dmaReg s.bus page).trans hdone),
    fun i hi => ?_, hkept, fun x hx => peek_of_oam s.bus m hx⟩
  rw [hcopied i hi, dmaSource_eq_ofNat page hi]

/-- Settles O19: each row's access replaces its register. -/
theorem interruptRegisterWrites : Obligations.InterruptRegisterWrites := by
  unfold Obligations.InterruptRegisterWrites
  exact ⟨fun v => ⟨decodeWrite_of_ifReg rfl v, decodeWrite_of_ie rfl v⟩, fun s v hs =>
    ⟨⟨_, writeCommand_done hs (wr := (writeIf · v)) rfl, rfl, rfl⟩,
      ⟨_, writeCommand_done hs (wr := (writeIe · v)) rfl, rfl, rfl⟩⟩⟩

/-- Settles O20: the register file's table puts the named register at each address. -/
theorem lcdRegisterWrites : Obligations.LcdRegisterWrites := by
  unfold Obligations.LcdRegisterWrites
  intro s v hs
  exact ⟨exec_wrLcdreg hs v (n := .lcdc) rfl, exec_wrLcdreg hs v (n := .stat) rfl, exec_wrLcdreg hs v (n := .scy) rfl,
    exec_wrLcdreg hs v (n := .scx) rfl, exec_wrLcdreg hs v (n := .lyc) rfl, exec_wrLcdreg hs v (n := .bgp) rfl,
    exec_wrLcdreg hs v (n := .obp0) rfl, exec_wrLcdreg hs v (n := .obp1) rfl, exec_wrLcdreg hs v (n := .wy) rfl,
    exec_wrLcdreg hs v (n := .wx) rfl⟩

/-- Settles O21: the write leaves an accepting state, whose READ of LY is the sentinel. -/
theorem lyWriteStoresAndStillReads148 : Obligations.LyWriteStoresAndStillReads148 := by
  unfold Obligations.LyWriteStoresAndStillReads148
  intro s v hs
  refine ⟨_, exec_wrLy hs v, rfl, exec_rdLy ?_⟩
  exact State.accepting_respond hs rfl .none

/-- Settles O23: each row's access is the collaborator's write to its own state. -/
theorem collaboratorWrites : Obligations.CollaboratorWrites := by
  unfold Obligations.CollaboratorWrites
  intro s a v hs
  exact ⟨fun _ => writeCommand_done hs (wr := (writeCart · a v)) rfl, ⟨_, exec_wrJoyp hs v⟩,
    fun _ => ⟨_, exec_wrTimer hs a v⟩⟩

end Sys2Proof.Proofs
end

section
/-! PROOFS. The word accesses of spec/42_word_access.md: RDW and WRW as the READ and WRITE commands of their two bytes,
in issue order, and the round trip of a word.
-/
namespace Sys2Proof

/-! ### The second byte of a word -/

/-- The second byte's address is the next one, and the one after 0xFFFF is 0x0000 (20_memory.md R53, D9). -/
theorem secondByte_toNat (a : Addr) : (secondByte a).toNat = (a.toNat + 1) % 65536 := BitVec.toNat_add a 1

/-- No byte is both halves of a word: consecutive addresses differ modulo every window's length, the wrap at 0xFFFF
included (20_memory.md R46, R53). -/
theorem not_sameByte_secondByte (a : Addr) : ¬ SameByte (secondByte a) a := by
  have hnext := secondByte_toNat a
  rintro (h | ⟨-, -, hmod⟩)
  · have heq : a.toNat = (secondByte a).toNat := congrArg BitVec.toNat h
    omega
  · omega

namespace Machine

/-! ### RDW on an accepting state -/

/-- RDW is its two READ commands (R122). -/
theorem exec_rdw (a : Addr) (s : State) : exec (.rdw a) s = readWordCommands s a := rfl

/-- RDW whose two bytes read: both READ commands complete, and the response is the word they make (R120). -/
theorem exec_rdw_done {s : State} (hs : s.accepting) {a : Addr} {lo hi : Byte} (hlo : memRead s.bus a = .done lo)
    (hhi : memRead s.bus (secondByte a) = .done hi) :
    exec (.rdw a) s = .next { s with pos := s.pos + 2, response := .word (joinBytes hi lo) } := by
  have hs' : (s.respond s.bus (.byte lo)).accepting := State.accepting_respond hs rfl _
  simp only [exec_rdw, readWordCommands, readCommand_done hs (rd := (memRead · a)) hlo, thenNext,
    State.respond_response, readCommand_done hs' (rd := (memRead · (secondByte a))) hhi]
  rfl

/-- RDW whose first byte is fatal is the first READ alone (R123). -/
theorem exec_rdw_first_raised {s : State} (hs : s.accepting) {a : Addr} {b : BusState}
    (hlo : memRead s.bus a = .raised b) : exec (.rdw a) s = .next (s.respond b .none) := by
  simp only [exec_rdw, readWordCommands, readCommand_raised hs (rd := (memRead · a)) hlo, thenNext,
    State.respond_response]

/-- RDW whose second byte alone is fatal ends in the second READ, with no data (R123). -/
theorem exec_rdw_second_raised {s : State} (hs : s.accepting) {a : Addr} {lo : Byte} {b : BusState}
    (hlo : memRead s.bus a = .done lo) (hhi : memRead s.bus (secondByte a) = .raised b) :
    exec (.rdw a) s = .next ((s.respond s.bus (.byte lo)).respond b .none) := by
  have hs' : (s.respond s.bus (.byte lo)).accepting := State.accepting_respond hs rfl _
  simp only [exec_rdw, readWordCommands, readCommand_done hs (rd := (memRead · a)) hlo, thenNext,
    State.respond_response, readCommand_raised hs' (rd := (memRead · (secondByte a))) hhi]

/-! ### WRW as its two WRITE commands -/

/-- WRW is its two WRITE commands (R122). -/
theorem exec_wrw (a : Addr) (w : Word) (s : State) : exec (.wrw a w) s = writeWordCommands s a w := rfl

/-- WRW goes on with the high byte's WRITE when the low byte's leaves the block running (R121, R122). -/
theorem exec_wrw_of_running {s t : State} {a : Addr} {w : Word}
    (h : exec (decodeWrite a (lowByte w)) s = .next t) (ht : t.bus.status = .running) :
    exec (.wrw a w) s = exec (decodeWrite (secondByte a) (highByte w)) t := by
  rw [exec_decodeWrite] at h ⊢
  simp only [exec_wrw, writeWordCommands, h, thenNext, ht]

/-- WRW ends with the low byte's WRITE when that faults (R123). -/
theorem exec_wrw_of_not_running {s t : State} {a : Addr} {w : Word}
    (h : exec (decodeWrite a (lowByte w)) s = .next t) (ht : t.bus.status ≠ .running) :
    exec (.wrw a w) s = .next t := by
  rw [exec_decodeWrite] at h
  cases hst : t.bus.status with
  | running => exact absurd hst ht
  | faulted => simp only [exec_wrw, writeWordCommands, h, thenNext, hst]

/-- WRW on an accepting state, when both bus writes complete and the first keeps the status: each moves the position by
one, and neither response has data (R121). -/
theorem exec_wrw_done {s : State} (hs : s.accepting) {a : Addr} {w : Word} {b b' : BusState}
    (hlo : memWrite s.bus a (lowByte w) = .done b) (hb : b.status = s.bus.status)
    (hhi : memWrite b (secondByte a) (highByte w) = .done b') :
    exec (.wrw a w) s = .next ((s.respond b .none).respond b' .none) := by
  have hs' : (s.respond b .none).accepting := State.accepting_respond hs hb _
  rw [exec_wrw_of_running (exec_decodeWrite_done hs hlo) hs'.1]
  exact exec_decodeWrite_done hs' hhi

end Machine
end Sys2Proof

namespace Sys2Proof.Proofs
open Sys2Proof Sys2Proof.Machine

/-- Settles O29: both READ commands complete. -/
theorem rdwReturnsHighThenLow : Obligations.RdwReturnsHighThenLow := by
  unfold Obligations.RdwReturnsHighThenLow
  intro s a lo hi hs hlo hhi
  exact exec_rdw_done hs (memRead_of_peek hlo) (memRead_of_peek hhi)

/-- Settles O30, by which READ command is the first to raise. -/
theorem rdwRaisesAtItsFirstFatalByte : Obligations.RdwRaisesAtItsFirstFatalByte := by
  unfold Obligations.RdwRaisesAtItsFirstFatalByte
  refine fun s a hs => ⟨fun hfirst => ?first, fun hfirst hsecond => ?second⟩
  case first => exact exec_rdw_first_raised hs (memRead_raised s.bus hfirst)
  case second =>
    obtain ⟨lo, hlo⟩ := memRead_done s.bus hfirst
    exact exec_rdw_second_raised hs hlo (memRead_raised s.bus hsecond)

/-- Settles O31, by whether the low byte's WRITE leaves the block running. -/
theorem wrwIsTwoWrites : Obligations.WrwIsTwoWrites := by
  unfold Obligations.WrwIsTwoWrites
  exact fun s t a w h => ⟨exec_wrw_of_running h, exec_wrw_of_not_running h⟩

/-- Settles O32: a byte write completes and keeps the status, unless it hands page 0xFF to the DMA register. -/
theorem wrwCompletes : Obligations.WrwCompletes := by
  unfold Obligations.WrwCompletes
  intro s a w hs hlo hhi
  have hlo' : a ≠ Config.dmaReg ∨ lowByte w ≠ 0xFF#8 :=
    hlo.imp_right fun hne he => hne (by rw [← lowByte_toNat, he]; rfl)
  have hhi' : secondByte a ≠ Config.dmaReg ∨ highByte w ≠ 0xFF#8 :=
    hhi.imp_right fun hne he => hne (by rw [← highByte_toNat, he]; rfl)
  obtain ⟨b, hw, hb⟩ := memWrite_done s.bus hlo'
  obtain ⟨b', hw', hb'⟩ := memWrite_done b hhi'
  exact ⟨_, exec_wrw_done hs hw hb hw', (hb'.trans hb).trans hs.1, rfl, rfl, rfl⟩

/-- Settles O33: each byte write reads back, and the second leaves the first byte readable, since they are not the same
byte. -/
theorem wordRoundTrip : Obligations.WordRoundTrip := by
  unfold Obligations.WordRoundTrip
  intro s a w hs ha ha'
  obtain ⟨b, hw, hb⟩ := memWrite_reads_back s.bus (lowByte w) ha
  obtain ⟨b', hw', hb'⟩ := memWrite_reads_back b (highByte w) ha'
  have hlo : peek b' a = some (lowByte w) := (hb'.elsewhere a (not_sameByte_secondByte a)).trans hb.written
  have ht : ((s.respond b .none).respond b' .none).accepting :=
    State.accepting_respond (State.accepting_respond hs hb.status _) hb'.status _
  refine ⟨_, exec_wrw_done hs hw hb.status hw', ?_⟩
  rw [exec_rdw_done ht (memRead_of_peek hlo) (memRead_of_peek hb'.written), joinBytes_halves]

end Sys2Proof.Proofs
end

section
/-! PROOFS. The interface of the video model (spec/43_video_model.md): which addresses the register file has, and which
indices the sprite memory has.
-/
namespace Sys2Proof

/-! ### The addresses of the register file -/

/-- A table that lists an address puts a register at it. -/
theorem exists_findVideoReg_eq_some {a : Addr} {t : List (Addr × VideoReg)} (h : a ∈ t.map Prod.fst) :
    ∃ n, findVideoReg a t = some n := by
  induction t with
  | nil => exact absurd h List.not_mem_nil
  | cons p rest ih =>
    unfold findVideoReg
    by_cases e : p.1 = a
    · exact ⟨p.2, if_pos e⟩
    · rw [if_neg e]
      exact ih ((List.mem_cons.1 h).resolve_left (Ne.symm e))

/-- VIDEO_REG_ADDRS, the addresses of the eleven registers (43_video_model.md R132). -/
theorem videoRegTable_addrs : videoRegTable.toList.map Prod.fst =
    [0xFF40#16, 0xFF41#16, 0xFF42#16, 0xFF43#16, 0xFF44#16, 0xFF45#16, 0xFF47#16, 0xFF48#16, 0xFF49#16, 0xFF4A#16,
     0xFF4B#16] := rfl

namespace Machine

/-! ### The register file, by whether the address has a register (43_video_model.md R125, R126) -/

theorem readRegister_of_some (b : BusState) {a : Addr} {n : VideoReg} (h : videoRegAt a = some n) :
    readRegister b a = .done (b.video.regs.get n) := by
  simp only [readRegister, h]

theorem readRegister_of_none (b : BusState) {a : Addr} (h : videoRegAt a = none) :
    readRegister b a = .raised (b.fault .unknownRegisterAccess a) := by
  simp only [readRegister, h, raiseFatal]

theorem writeRegister_of_some (b : BusState) {a : Addr} (v : Byte) {n : VideoReg} (h : videoRegAt a = some n) :
    writeRegister b a v = .done { b with video := { b.video with regs := b.video.regs.set n v } } := by
  simp only [writeRegister, h]

theorem writeRegister_of_none (b : BusState) {a : Addr} (v : Byte) (h : videoRegAt a = none) :
    writeRegister b a v = .raised (b.fault .unknownRegisterAccess a) := by
  simp only [writeRegister, h, raiseFatal]

/-! ### The sprite memory, by whether the array has the index (43_video_model.md R129, R130, D19) -/

theorem readSpriteMemory_of_lt (b : BusState) {a : Addr} (h : oamIndex a < Config.oamSize) :
    readSpriteMemory b a = .done (Memory.readByte b.video.oam (oamIndex a)) := if_pos h

theorem readSpriteMemory_of_le (b : BusState) {a : Addr} (h : Config.oamSize ≤ oamIndex a) :
    readSpriteMemory b a = .refused .oamIndexOutOfRange := if_neg (Nat.not_lt.2 h)

theorem writeSpriteMemory_of_lt (b : BusState) {a : Addr} (v : Byte) (h : oamIndex a < Config.oamSize) :
    writeSpriteMemory b a v =
      .done { b with video := { b.video with oam := Memory.writeByte b.video.oam (oamIndex a) v } } := if_pos h

theorem writeSpriteMemory_of_le (b : BusState) {a : Addr} (v : Byte) (h : Config.oamSize ≤ oamIndex a) :
    writeSpriteMemory b a v = .refused .oamIndexOutOfRange := if_neg (Nat.not_lt.2 h)

end Machine
end Sys2Proof

namespace Sys2Proof.Proofs
open Sys2Proof Sys2Proof.Machine

/-- Settles O45: the register table answers exactly at its own eleven addresses. -/
theorem unknownVideoRegistersRaise : Obligations.UnknownVideoRegistersRaise := by
  unfold Obligations.UnknownVideoRegistersRaise
  intro b a v
  rw [← videoRegTable_addrs]
  refine ⟨fun hout => ?outside, fun hin => ?inside⟩
  case outside =>
    have hnone : videoRegAt a = none := findVideoReg_none hout
    exact ⟨readRegister_of_none b hnone, writeRegister_of_none b v hnone⟩
  case inside =>
    obtain ⟨n, hn⟩ : ∃ n, videoRegAt a = some n := exists_findVideoReg_eq_some hin
    exact ⟨n, hn, readRegister_of_some b hn, writeRegister_of_some b v hn⟩

/-- Settles O46: the index is the address's low byte, and the array has 160 bytes. -/
theorem spriteMemoryIndexIsChecked : Obligations.SpriteMemoryIndexIsChecked := by
  unfold Obligations.SpriteMemoryIndexIsChecked
  intro b a v
  rw [← oamIndex_eq]
  refine ⟨fun hout => ?outside, fun hin => ?inside⟩
  case outside => exact ⟨readSpriteMemory_of_le b hout, writeSpriteMemory_of_le b v hout⟩
  case inside =>
    exact ⟨readSpriteMemory_of_lt b hin, _, writeSpriteMemory_of_lt b v hin,
      fun i => Memory.readByte_writeByte b.video.oam (oamIndex a) i v⟩

end Sys2Proof.Proofs
end

section
/-! PROOFS. The DMA transfers of spec/44_dma.md from the two pages of their own rule: page 0xFE, which is sprite memory
onto itself, and page 0xFF, which raises at its second byte.
-/
namespace Sys2Proof

/-! ### The source addresses of a transfer from page 0xFE -/

/-- The source of byte i in page 0xFE is the sprite memory's own byte i (44_dma.md R148). -/
theorem dmaSource_of_oam_page {i : Nat} (hi : i < Config.dmaLen) :
    region (dmaSource 0xFE#8 i) = .oam ∧ oamIndex (dmaSource 0xFE#8 i) = i := by
  have hsrc : (dmaSource 0xFE#8 i).toNat = 0xFE00 + i := dmaSource_toNat 0xFE#8 hi
  have hlt : i < 160 := hi
  have hfirst : 0xFE00 ≤ (dmaSource 0xFE#8 i).toNat := by omega
  have hlast : (dmaSource 0xFE#8 i).toNat ≤ 0xFE9F := by omega
  exact ⟨region_of_row ⟨0xFE00, 0xFE9F, .oam⟩ (by decide) hfirst hlast, by rw [oamIndex_eq]; omega⟩

namespace Machine

theorem peek_dmaSource_of_oam_page (b : BusState) {i : Nat} (hi : i < Config.dmaLen) :
    peek b (dmaSource 0xFE#8 i) = some (Memory.readByte b.video.oam i) := by
  obtain ⟨hr, hix⟩ := dmaSource_of_oam_page hi
  rw [peek_of_memRead (memRead_of_oam b hr), hix]

/-- A transfer of sprite memory onto itself leaves every byte, so, in canonical form, the bus (R148). -/
theorem dmaTransfer_of_oam_page {b : BusState} (hwf : Memory.wf Config.oamSize b.video.oam) :
    dmaTransfer b 0xFE#8 = .done b := by
  obtain ⟨m, hdone, hcopied, hkept⟩ := dmaTransfer_copies b (page := 0xFE#8) (by decide)
  have hread : ∀ i, Memory.readByte m i = Memory.readByte b.video.oam i := fun i => by
    obtain hi | hi := Nat.lt_or_ge i Config.dmaLen
    · exact Option.some.inj ((hcopied i hi).trans (peek_dmaSource_of_oam_page b hi))
    · exact hkept i hi
  have hm : m = b.video.oam := Memory.ext_of_wf (dmaTransfer_oam_wf hwf (.inl hdone)) hwf hread
  rw [hdone, hm]

end Machine
end Sys2Proof

namespace Sys2Proof.Proofs
open Sys2Proof Sys2Proof.Machine

/-- Settles O27: the transfer from page 0xFF raises once oam[0] is written, and DMA's bus write is that transfer. -/
theorem dmaFromPageFFFaults : Obligations.DmaFromPageFFFaults := by
  unfold Obligations.DmaFromPageFFFaults
  intro s hs
  have hwr := writeCommand_raised hs (wr := (writeDma · 0xFF#8)) (dmaTransfer_ff s.bus)
  have hdma := writeCommand_raised hs (wr := (memWrite · Config.dmaReg 0xFF#8)) (memWrite_dma_ff s.bus)
  exact ⟨_, hwr, hdma.trans hwr.symm, fun i => Memory.readByte_writeByte s.bus.video.oam 0 i _⟩

/-- Settles O28: in canonical form the transfer from page 0xFE hands the bus back as it is. -/
theorem dmaFromOamItselfChangesNothing : Obligations.DmaFromOamItselfChangesNothing := by
  unfold Obligations.DmaFromOamItselfChangesNothing
  rintro s hs ⟨-, -, -, hoam⟩
  exact writeCommand_done hs (wr := (writeDma · 0xFE#8)) (dmaTransfer_of_oam_page hoam)

end Sys2Proof.Proofs
end

section
/-! PROOFS. The step orchestrator of spec/45_advance.md: the requests ADV merges, the latches it leaves clear, what each
device receives and what the bus keeps.
-/
namespace Sys2Proof

/-- The timer's argument is the source's product, cut to 16 bits (45_advance.md R153, D10). -/
theorem timerTicks_eq_ofNat (c : Cycles) : timerTicks c = BitVec.ofNat 16 (4 * c.toNat) := rfl

namespace Machine

/-- IF after the three merges, over the free request bytes (R152). -/
theorem advanceBus_ifReg_eq_or_requests (b : BusState) (c : Cycles) : (advanceBus b c).ifReg =
    ((b.ifReg ||| Config.renderLatch b.video c) ||| (b.input.latch ||| Config.inputAdvanceLatch b.input c)) |||
      (b.timer.latch ||| Config.timerAdvanceLatch b.timer (BitVec.ofNat 16 (4 * c.toNat))) := by
  rw [advanceBus_ifReg, VideoState.renderAdvance_latch, InputState.advance_latch, TimerState.advance_latch,
    timerTicks_eq_ofNat]

/-- ADVANCE clears all three latches (R152, 10_state.md R27). -/
theorem advanceBus_latchesClear (b : BusState) (c : Cycles) : (advanceBus b c).latchesClear :=
  ⟨VideoState.clearLatch_latch _, InputState.clearLatch_latch _, TimerState.clearLatch_latch _⟩

/-- The renderer works on the video state and the cycles it is handed (R150, 43_video_model.md R131). -/
theorem advanceBus_video_regs_log (b : BusState) (c : Cycles) :
    (advanceBus b c).video.regs = Config.renderRegs b.video c ∧
    (advanceBus b c).video.render.log = ⟨b.video.regs, b.video.vram, b.video.oam, c⟩ :: b.video.render.log := by
  rw [advanceBus_video, VideoState.clearLatch_regs, VideoState.clearLatch_log]
  exact ⟨VideoState.renderAdvance_regs .., VideoState.renderAdvance_log ..⟩

theorem advanceBus_input_log (b : BusState) (c : Cycles) :
    (advanceBus b c).input.log = .advance c :: b.input.log := by
  rw [advanceBus_input, InputState.clearLatch_log, InputState.advance_log]

theorem advanceBus_timer_log (b : BusState) (c : Cycles) :
    (advanceBus b c).timer.log = .advance (timerTicks c) :: b.timer.log := by
  rw [advanceBus_timer, TimerState.clearLatch_log, TimerState.advance_log]

end Machine
end Sys2Proof

namespace Sys2Proof.Proofs
open Sys2Proof Sys2Proof.Machine

/-- Settles O34: ADV leaves the orchestrator's bus, which merges the three request bytes and clears the latches. -/
theorem advanceMergesAndClearsEveryRequest : Obligations.AdvanceMergesAndClearsEveryRequest := by
  unfold Obligations.AdvanceMergesAndClearsEveryRequest
  intro s c hs
  exact ⟨_, exec_adv hs c, advanceBus_ifReg_eq_or_requests s.bus c, advanceBus_latchesClear s.bus c⟩

/-- Settles O35: each device's part of the orchestrator's bus, the timer's ticks without a wrap, and the frame. -/
theorem advanceAdvancesTheThreeDevicesOnly : Obligations.AdvanceAdvancesTheThreeDevicesOnly := by
  unfold Obligations.AdvanceAdvancesTheThreeDevicesOnly
  intro s c hs
  obtain ⟨hregs, hcall⟩ := advanceBus_video_regs_log s.bus c
  refine ⟨_, exec_adv hs c, hregs, hcall, advanceBus_input_log s.bus c,
    ⟨timerTicks c, timerTicks_toNat c, advanceBus_timer_log s.bus c⟩, ?frame⟩
  case frame =>
    exact ⟨advanceBus_wram .., advanceBus_hram .., advanceBus_ieReg .., advanceBus_cart .., advanceBus_status ..,
      State.respond_pos .., State.respond_pending .., State.respond_response ..⟩

end Sys2Proof.Proofs
end

section
/-! PROOFS. Power-on by spec/46_init.md: INIT as the first command and refused later, every other command refused as the
first, and the registers that the entries of a power-on table leave.
-/
namespace Sys2Proof

/-- A region is one whose writes read back, LY, one whose writes are ignored, a collaborator's, or DMA
(41_byte_write.md R118, 20_memory.md R44). -/
theorem Region.write_cases (r : Region) : r ∈ [Region.vram, .wram, .echo, .oam, .hram, .ifReg, .ie, .lcdreg] ∨
    r = .ly ∨ r ∈ [Region.unmapped, .serial, .sound, .cgb] ∨ (r = .cartRom ∨ r = .cartRam) ∨ r = .joyp ∨ r = .timer ∨
    r = .dma := by
  cases r <;> decide

namespace Machine

/-! ### INIT and the other commands at the start of a run (R162) -/

/-- INIT as the first command ends in the bus the table comes to, completed or raised (R160). -/
theorem exec_init_first {s : State} (hr : s.bus.status = .running) (hp : s.pos = 0) {b : BusState}
    (hb : initBus s.powerOnTable = .done b ∨ initBus s.powerOnTable = .raised b) :
    exec .init s = .next (s.respond b .none) := by
  change initCommand s s.powerOnTable = _
  rw [initCommand, whenRunning_running hr, if_pos hp]
  obtain hb | hb := hb <;> rw [hb] <;> rfl

theorem exec_init_late {s : State} (hr : s.bus.status = .running) (hp : s.pos ≠ 0) :
    exec .init s = .refused .lateInit := by
  change initCommand s s.powerOnTable = _
  rw [initCommand, whenRunning_running hr, if_neg hp]

theorem command_before_init {s : State} (hr : s.bus.status = .running) (hp : s.pos = 0)
    (body : BusState → Access (BusState × Response)) : command s body = .refused .firstNotInit := by
  rw [command, whenRunning_running hr, if_pos hp]

theorem readCommand_before_init {s : State} (hr : s.bus.status = .running) (hp : s.pos = 0)
    (rd : BusState → Access Byte) : readCommand s rd = .refused .firstNotInit := command_before_init hr hp _

theorem writeCommand_before_init {s : State} (hr : s.bus.status = .running) (hp : s.pos = 0)
    (wr : BusState → Access BusState) : writeCommand s wr = .refused .firstNotInit := command_before_init hr hp _

/-- Every instruction but INIT is a READ, a WRITE or an ADVANCE, or begins with one. -/
theorem exec_before_init {s : State} (hr : s.bus.status = .running) (hp : s.pos = 0) {i : Instr} (hi : i ≠ .init) :
    exec i s = .refused .firstNotInit := by
  have hread := readCommand_before_init hr hp
  have hwrite := writeCommand_before_init hr hp
  cases i with
  | init => exact absurd rfl hi
  | rdw a => rw [exec_rdw, readWordCommands, hread, thenNext]
  | wrw a w => rw [exec_wrw, writeWordCommands, hwrite, thenNext]
  | adv c => exact command_before_init hr hp fun b => .done (advanceBus b c, .none)
  | rdCart | rdVram | rdWram | rdEcho | rdOam | rdUnmapped | rdJoyp | rdSerial | rdTimer | rdIf | rdSound | rdLcdreg
  | rdLy | rdDma | rdCgb | rdHram | rdIe =>
    unfold exec
    exact hread _
  | wrCart | wrVram | wrWram | wrEcho | wrOam | wrUnmapped | wrJoyp | wrSerial | wrTimer | wrIf | wrSound | wrLcdreg
  | wrLy | wrDma | wrCgb | wrHram | wrIe | dma =>
    unfold exec
    exact hwrite _

/-! ### The registers a power-on table leaves (R160, R161) -/

/-- A table is applied part after part (D14). -/
theorem applyTable_append {pre : List (Addr × Byte)} (post : List (Addr × Byte)) {b b' : BusState}
    (h : applyTable pre b = .done b') : applyTable (pre ++ post) b = applyTable post b' := by
  induction pre generalizing b with
  | nil => cases h; rfl
  | cons e rest ih =>
    rw [applyTable] at h
    rw [List.cons_append, applyTable]
    cases hw : memWrite b e.1 e.2 with
    | done b₁ =>
      rw [hw, Access.andThen_done] at h
      exact ih h
    | raised b₁ => rw [hw] at h; cases h
    | refused r => rw [hw] at h; cases h

/-- A table without an entry for the DMA register completes. -/
theorem applyTable_done {table : List (Addr × Byte)} (hdma : ∀ e ∈ table, region e.1 ≠ .dma) (b : BusState) :
    ∃ b', applyTable table b = .done b' := by
  obtain ⟨-, b', h, -⟩ | ⟨hmem, -⟩ := applyTable_cases table b
  · exact ⟨b', h⟩
  · exact absurd rfl (hdma _ hmem)

section
variable {a : Addr} (ha : region a ∈ [Region.lcdreg, .ifReg, .ie])
include ha

/-- A register's byte has no second address (10_state.md R12). -/
theorem not_sameByte_register {x : Addr} (hne : x ≠ a) : ¬ SameByte x a := by
  rintro (rfl | ⟨-, hwindow, -⟩)
  · exact hne rfl
  · obtain h | h : region a = .wram ∨ region a = .echo := by simpa using hwindow
    · simp [h] at ha
    · simp [h] at ha

/-- A read of a register sees no device and no cartridge. -/
theorem peek_register_congr {b b' : BusState} (hvideo : b'.video.regs = b.video.regs) (hif : b'.ifReg = b.ifReg)
    (hie : b'.ieReg = b.ieReg) : peek b' a = peek b a := by
  rw [peek_by_region, peek_by_region, hvideo, hif, hie]
  obtain h | h | h : region a = .lcdreg ∨ region a = .ifReg ∨ region a = .ie := by simpa using ha
  all_goals rw [h]

/-- A byte write outside the DMA register completes, and no other address's register sees it. -/
theorem memWrite_keeps_other_register (b : BusState) {x : Addr} (v : Byte) (hdma : region x ≠ .dma) (hne : x ≠ a) :
    ∃ b', memWrite b x v = .done b' ∧ peek b' a = peek b a := by
  obtain h | h | h | h | h | h | h := (region x).write_cases
  · obtain ⟨b', hw, hb⟩ := memWrite_reads_back b v h
    exact ⟨b', hw, hb.elsewhere a (not_sameByte_register ha hne)⟩
  · obtain ⟨b', hw, hpeek⟩ := memWrite_ly_unseen b v h
    exact ⟨b', hw, hpeek a⟩
  · exact ⟨b, memWrite_of_ignored b v h, rfl⟩
  · exact ⟨_, memWrite_of_cart b v h, peek_register_congr ha rfl rfl rfl⟩
  · exact ⟨_, memWrite_of_joyp b v h, peek_register_congr ha rfl rfl rfl⟩
  · exact ⟨_, memWrite_of_timer b v h, peek_register_congr ha rfl rfl rfl⟩
  · exact absurd h hdma

/-- Entries for other addresses than a register's leave it as it was. -/
theorem applyTable_keeps_unnamed_register {table : List (Addr × Byte)} (hdma : ∀ e ∈ table, region e.1 ≠ .dma)
    (hne : ∀ e ∈ table, e.1 ≠ a) (b : BusState) : ∃ b', applyTable table b = .done b' ∧ peek b' a = peek b a := by
  induction table generalizing b with
  | nil => exact ⟨b, rfl, rfl⟩
  | cons e rest ih =>
    obtain ⟨hdma, hdma'⟩ := List.forall_mem_cons.1 hdma
    obtain ⟨hne, hne'⟩ := List.forall_mem_cons.1 hne
    obtain ⟨b₁, hw, hb₁⟩ := memWrite_keeps_other_register ha b e.2 hdma hne
    obtain ⟨b₂, ht, hb₂⟩ := ih hdma' hne' b₁
    refine ⟨b₂, ?_, hb₂.trans hb₁⟩
    rw [applyTable, hw, Access.andThen_done, ht]

/-- A register holds the value of the last entry for it. -/
theorem applyTable_sets_named_register {pre post : List (Addr × Byte)} (v : Byte)
    (hdma : ∀ e ∈ pre ++ post, region e.1 ≠ .dma) (hlast : ∀ e ∈ post, e.1 ≠ a) (b : BusState) :
    ∃ b', applyTable (pre ++ (a, v) :: post) b = .done b' ∧ peek b' a = some v := by
  obtain ⟨hpre, hpost⟩ := List.forall_mem_append.1 hdma
  obtain ⟨b₁, ht⟩ := applyTable_done hpre b
  obtain ⟨b₂, hw, hb₂⟩ := memWrite_reads_back b₁ v
    ((by decide : [Region.lcdreg, .ifReg, .ie] ⊆ [Region.vram, .wram, .echo, .oam, .hram, .ifReg, .ie, .lcdreg]) ha)
  obtain ⟨b₃, ht', hb₃⟩ := applyTable_keeps_unnamed_register ha hpost hlast b₂
  refine ⟨b₃, ?_, hb₃.trans hb₂.written⟩
  rw [applyTable_append _ ht, applyTable, hw, Access.andThen_done, ht']

/-- The zero fill reaches every register (D15). -/
theorem peek_zeroFilledBus : peek zeroFilledBus a = some 0x00#8 := by
  obtain h | h | h : region a = .lcdreg ∨ region a = .ifReg ∨ region a = .ie := by simpa using ha
  · obtain ⟨n, hn⟩ := Option.isSome_iff_exists.1 (videoRegAt_of_region (.inl h))
    rw [peek_by_region, h, hn]
    cases n <;> rfl
  · rw [peek_by_region, h]
    rfl
  · rw [peek_by_region, h]
    rfl

/-- INIT as the first command shows at a register's address what the table leaves there: clearing the latches is no
register write. -/
theorem exec_init_peek {s : State} (hr : s.bus.status = .running) (hp : s.pos = 0) {b : BusState}
    (hb : applyTable s.powerOnTable zeroFilledBus = .done b) :
    ∃ t, exec .init s = .next t ∧ peek t.bus a = peek b a := by
  refine ⟨_, exec_init_first hr hp (b := clearLatches b) (.inl ?_), peek_register_congr ha rfl rfl rfl⟩
  rw [initBus, hb, Access.andThen_done]

end

end Machine
end Sys2Proof

namespace Sys2Proof.Proofs
open Sys2Proof Sys2Proof.Machine

/-- Settles O39, from the two ends of a power-on table. -/
theorem initCompletesForEveryTableWithoutAFaultingDma :
    Obligations.InitCompletesForEveryTableWithoutAFaultingDma := by
  unfold Obligations.InitCompletesForEveryTableWithoutAFaultingDma
  intro s hr hp
  have hpos : s.pos + 1 = 1 := by rw [hp]
  obtain ⟨hout, b, hb, hrun, hclear⟩ | ⟨hin, b, hb, hfault⟩ := initBus_cases s.powerOnTable
  · refine ⟨_, exec_init_first hr hp (.inl hb), hpos, rfl, rfl, fun _ => ⟨hrun, hclear⟩, ?_⟩
    rintro ⟨⟨x, v⟩, he, rfl, rfl⟩
    exact absurd he hout
  · refine ⟨_, exec_init_first hr hp (.inr hb), hpos, rfl, rfl, fun hsafe => ?_, fun _ => hfault⟩
    exact absurd (hsafe _ hin) (by decide)

/-- Settles O40: the two tests of the position. -/
theorem initIsFirstAndOnlyFirst : Obligations.InitIsFirstAndOnlyFirst := by
  unfold Obligations.InitIsFirstAndOnlyFirst
  exact fun s hr => ⟨exec_init_late hr, fun hp _ hi => exec_before_init hr hp hi⟩

/-- Settles O55: the entries after the last one for the address leave its register alone. -/
theorem initSetsTheRegistersTheTableNames : Obligations.InitSetsTheRegistersTheTableNames := by
  unfold Obligations.InitSetsTheRegistersTheTableNames
  intro s pre post a v hr hp ha hdma hlast
  refine ⟨fun htable => ?named, fun htable => ?unnamed⟩
  case named =>
    obtain ⟨b, hb, hv⟩ := applyTable_sets_named_register ha v hdma hlast zeroFilledBus
    rw [← hv]
    exact exec_init_peek ha hr hp (htable ▸ hb)
  case unnamed =>
    have hpost := (List.forall_mem_append.1 hdma).2
    obtain ⟨b, hb, hkept⟩ := applyTable_keeps_unnamed_register ha hpost hlast zeroFilledBus
    rw [← peek_zeroFilledBus ha, ← hkept]
    exact exec_init_peek ha hr hp (htable ▸ hb)

/-- Settles O37: INIT's bus is made of the table alone, and the default table's is the reset bus. -/
theorem initLeavesTheResetState : Obligations.InitLeavesTheResetState := by
  unfold Obligations.InitLeavesTheResetState
  intro s hr hp htable
  have hbus : initBus s.powerOnTable = .done BusState.reset := by rw [htable, initBus_default]
  rw [exec_init_first hr hp (.inl hbus), State.respond, hp]
  rfl

end Sys2Proof.Proofs
end

section
/-! PROOFS. The fatal conditions of spec/60_exceptions.md: what a faulted machine answers, which commands fault a running
one, and the invariants that every step keeps.
-/
namespace Sys2Proof.Machine

/-! ### A faulted machine accepts nothing (R175) -/

theorem step_of_faulted {s : State} {kind : FatalKind} {a : Addr} (h : s.bus.status = .faulted kind a) :
    step s = .fault (.halted kind a) := by
  simp only [step, fetchCommand, h]

/-- Every instruction asks for the status first: RDW and WRW in the first of their two commands. -/
theorem exec_of_faulted {s : State} {kind : FatalKind} {a : Addr} (h : s.bus.status = .faulted kind a) (i : Instr) :
    exec i s = .fault (.halted kind a) := by
  cases i with
  | rdw x => rw [exec_rdw, readWordCommands, readCommand, command, whenRunning_faulted h, thenNext]
  | wrw x w => rw [exec_wrw, writeWordCommands, writeCommand, command, whenRunning_faulted h, thenNext]
  | _ => exact whenRunning_faulted h _

/-! ### The idle step -/

theorem step_of_idle {s : State} (hr : s.bus.status = .running) (hp : s.pending = []) : step s = .next s := by
  simp only [step, fetchCommand, hr, hp]

/-! ### Why a command faults a running machine (R171, R172) -/

/-- A byte write keeps the status, but for a DMA from page 0xFF, which stops at 0xFF01 (44_dma.md R146). -/
theorem memWrite_status (b : BusState) (a : Addr) (v : Byte) : (memWrite b a v).leaves fun b' =>
    b'.status = b.status ∨
      (a = Config.dmaReg ∧ v = 0xFF#8) ∧ b'.status = .faulted .unsupportedFeatureAccess 0xFF01#16 := by
  by_cases h : a = Config.dmaReg ∧ v = 0xFF#8
  · obtain ⟨rfl, rfl⟩ := h
    rw [memWrite_dma_ff]
    exact .inr ⟨⟨rfl, rfl⟩, rfl⟩
  · obtain ⟨b', hb, hstatus⟩ := memWrite_done b (not_and_or.1 h)
    rw [hb]
    exact .inl hstatus

/-- INIT leaves the block running, but for a table that hands page 0xFF to the DMA register (46_init.md R160). -/
theorem initBus_status (table : List (Addr × Byte)) : (initBus table).leaves fun b =>
    b.status = .running ∨
      (Config.dmaReg, 0xFF#8) ∈ table ∧ b.status = .faulted .unsupportedFeatureAccess 0xFF01#16 := by
  obtain ⟨_, b, hb, hrun, _⟩ | ⟨hmem, b, hb, hfault⟩ := initBus_cases table <;> rw [hb]
  · exact .inl hrun
  · exact .inr ⟨hmem, hfault⟩

/-- The three ways a command word faults a running machine, with the address recorded. -/
inductive FaultCause (s : State) (w : CmdWord) : Addr → Prop where
  | read (a : Addr) (hfatal : (region a).fatalOnRead = true) (hd : decode w = .ok (decodeRead a)) : FaultCause s w a
  | dma (hd : decode w = .ok (.wrDma 0xFF#8)) : FaultCause s w 0xFF01#16
  | init (hd : decode w = .ok .init) (hentry : (Config.dmaReg, 0xFF#8) ∈ s.powerOnTable) : FaultCause s w 0xFF01#16

/-- Whatever the cause, the address recorded is one of SERIAL or CGB: a DMA from page 0xFF reads 0xFF01. -/
theorem FaultCause.fatalOnRead {s : State} {w : CmdWord} {a : Addr} (h : FaultCause s w a) :
    (region a).fatalOnRead = true := by
  cases h with
  | read _ hfatal => exact hfatal
  | dma | init => decide

/-- A step that leaves the machine Faulted recorded an UnsupportedFeatureAccess, for one of the three causes. -/
theorem faultCause_of_step {s t : State} {w : CmdWord} {rest : List CmdWord} {kind : FatalKind} {a : Addr}
    (hp : s.pending = w :: rest) (h : step s = .next t) (hf : t.bus.status = .faulted kind a) :
    kind = .unsupportedFeatureAccess ∧ FaultCause s w a := by
  have hrun : s.bus.status ≠ .faulted kind a := by simp [(step_next h).1]
  obtain rfl | ⟨w', rest', hp', _, _, _, hcases⟩ := step_bus_cases h
  · exact absurd hf hrun
  obtain ⟨rfl, rfl⟩ := List.cons.inj (hp.symm.trans hp')
  obtain ⟨hd, hb | ⟨hfatal, hb⟩⟩ | ⟨hd, hb⟩ | ⟨hd, hb⟩ | ⟨hd, hb⟩ := hcases
  · exact absurd (hb ▸ hf) hrun
  · rw [hb] at hf
    cases hf
    exact ⟨rfl, .read _ hfatal hd⟩
  · obtain hkept | ⟨⟨ha, hv⟩, hs⟩ := (memWrite_status ..).of_end hb
    · exact absurd (hkept ▸ hf) hrun
    · cases hs.symm.trans hf
      rw [ha, hv] at hd
      exact ⟨rfl, .dma hd⟩
  · rw [hb] at hf
    exact absurd hf hrun
  · obtain hs | ⟨hentry, hs⟩ := (initBus_status _).of_end hb <;> cases hs.symm.trans hf
    exact ⟨rfl, .init hd hentry⟩

/-! ### What every step keeps -/

/-- Every step keeps the canonical form of the four arrays, whatever the renderer does (10_state.md R19 to R22). -/
theorem step_keeps_memoriesWf {s t : State} (hwf : s.bus.memoriesWf) (h : step s = .next t) : t.bus.memoriesWf := by
  obtain rfl | ⟨w, rest, _, _, _, _, hcases⟩ := step_bus_cases h
  · exact hwf
  obtain ⟨_, hb | ⟨_, hb⟩⟩ | ⟨_, hb⟩ | ⟨_, hb⟩ | ⟨_, hb⟩ := hcases
  · rwa [hb]
  · rw [hb]
    exact hwf
  · exact (memWrite_keeps_memoriesWf _ _ _ hwf).of_end hb
  · rw [hb]
    exact advanceBus_keeps_memoriesWf _ _ hwf
  · exact (initBus_memoriesWf _).of_end hb

/-- Every step keeps the recorded fault explained: an idle step records none, a command's has its cause. -/
theorem step_keeps_faultExplained {s t : State} (hs : s.bus.faultExplained) (h : step s = .next t) :
    t.bus.faultExplained := by
  obtain ⟨_, ⟨_, rfl⟩ | ⟨w, rest, _, hp, _⟩⟩ := step_next h
  · exact hs
  · intro kind a hf
    obtain ⟨hkind, hcause⟩ := faultCause_of_step hp h hf
    exact ⟨hkind, hcause.fatalOnRead⟩

/-- A step of a safely loaded state, idle or not, gives a safely loaded state. -/
theorem step_keeps_safelyLoaded {s : State} (h : s.safelyLoaded) : ∃ t, step s = .next t ∧ t.safelyLoaded := by
  cases hp : s.pending with
  | nil => exact ⟨s, step_of_idle h.1.1 hp, h⟩
  | cons w rest =>
    obtain ⟨t, hstep, ht, _, _⟩ := step_of_safelyLoaded h hp
    exact ⟨t, hstep, ht⟩

end Sys2Proof.Machine

namespace Sys2Proof.Proofs
open Sys2Proof Sys2Proof.Machine

/-- Settles O42: the step and every instruction ask for the status first. -/
theorem faultedAcceptsNoCommand : Obligations.FaultedAcceptsNoCommand := by
  unfold Obligations.FaultedAcceptsNoCommand
  exact fun s kind a h => ⟨step_of_faulted h, exec_of_faulted h⟩

/-- Settles O44, from the three causes of a fault. -/
theorem onlySerialAndCgbReadsFault : Obligations.OnlySerialAndCgbReadsFault := by
  unfold Obligations.OnlySerialAndCgbReadsFault
  intro s t w rest kind a _ hp h hf
  obtain ⟨hkind, hcause⟩ := faultCause_of_step hp h hf
  refine ⟨hkind, hcause.fatalOnRead, ?_⟩
  cases hcause with
  | read _ hfatal hd =>
    obtain hrow | hrow := decodeRead_of_fatalOnRead hfatal <;> rw [hrow] at hd
    · exact .inl hd
    · exact .inr (.inl hd)
  | dma hd => exact .inr (.inr (.inl ⟨hd, rfl⟩))
  | init hd hentry => exact .inr (.inr (.inr ⟨hd, hentry, rfl⟩))

/-- Settles O47: each half of the invariant is kept. -/
theorem stepKeepsTheInvariant : Obligations.StepKeepsTheInvariant := by
  unfold Obligations.StepKeepsTheInvariant
  rintro s t ⟨hwf, hexplained⟩ h
  exact ⟨step_keeps_memoriesWf hwf h, step_keeps_faultExplained hexplained h⟩

/-- Settles O57, by whether a word is pending. -/
theorem stepKeepsASafeStreamSafe : Obligations.StepKeepsASafeStreamSafe := by
  unfold Obligations.StepKeepsASafeStreamSafe
  exact fun s h => step_keeps_safelyLoaded h

end Sys2Proof.Proofs
end

section
/-! PROOFS. The reset state of spec/70_reset_and_hazards.md R195: INIT leaves it from power-on, and it starts the
invariant that every step keeps.
-/
namespace Sys2Proof.Machine

/-- INIT as the first command with the default table leaves the reset bus, at position 1. -/
theorem exec_init_powerOn : exec .init State.powerOn = .next State.reset :=
  exec_init_first rfl rfl (.inl initBus_default)

/-- A running block records no fault to be explained. -/
theorem faultExplained_of_running {b : BusState} (h : b.status = .running) : b.faultExplained := by
  intro kind a hf
  cases h.symm.trans hf

end Sys2Proof.Machine

namespace Sys2Proof.Proofs
open Sys2Proof Sys2Proof.Machine

/-- Settles O38: INIT's next state, and the arrays of the reset state, in which no index is listed. -/
theorem resetIsWhatInitLeaves : Obligations.ResetIsWhatInitLeaves := by
  unfold Obligations.ResetIsWhatInitLeaves
  have hzero : ∀ i, Memory.readByte [] i = 0x00#8 := Memory.readByte_nil
  exact ⟨exec_init_powerOn, fun i => ⟨hzero i, hzero i, hzero i, hzero i⟩⟩

/-- Settles O48: canonical arrays, and a running status. -/
theorem resetMeetsTheInvariant : Obligations.ResetMeetsTheInvariant := by
  unfold Obligations.ResetMeetsTheInvariant
  exact ⟨reset_memoriesWf, faultExplained_of_running rfl⟩

end Sys2Proof.Proofs
end
